-- ==== Sys2Proof/Word.lean ====
section
/-!
DEFINITION. The word types of the block and the numbers its operands name.

* `Word32`: one register of the host window (R30).
* `Word64`: one word of the command port (R70).
* `Reg`, `Bank`: a field register number (R21) and a bank number as the 4-bit field gives it (R73).

A field element has no type of its own. The spec's field element is an "integer value `v`" that the field functions keep
below `p` (R11, R22), and its pseudocode computes on unbounded integers, so it is a `Nat`; that a state holds only values below
`p` is an invariant (`Sys2Proof.Machine.State.RegsCanonical`). Log 7.
-/

namespace Sys2Proof

abbrev Word32 := BitVec 32

abbrev Word64 := BitVec 64

abbrev Reg := Fin 8

abbrev Bank := Fin 16

end Sys2Proof
end

