-- ==== Sys2Proof/Syntax.lean ====
section
/-!
DEFINITION. The commands of the block (R75), one constructor for each row of the opcode table, with the operands of R79's
assembly syntax: a register is a `Reg`, a bank a `Bank`, an index, size or exponent a natural number, and FSETI's operand an
integer. Which numbers fit their fields is `Instr.WellFormed`. Log 17.
-/

namespace Sys2Proof

/-- The opcodes of R75, by name. -/
inductive Opcode where
  | nop | fadd | fsub | fmul | fneg | finv | fdiv | fpow | fseti | fcmp
  | fld | fst
  | ntt | intt
  | rbuild | rrd | brrd
  deriving DecidableEq, Repr

/-- A command with its operands. -/
inductive Instr where
  /-- R119 -/
  | nop
  /-- R110 -/
  | fadd (rd ra rb : Reg)
  /-- R111: `ra` is the minuend, `rb` the subtrahend (R76) -/
  | fsub (rd ra rb : Reg)
  /-- R112 -/
  | fmul (rd ra rb : Reg)
  /-- R113 -/
  | fneg (rd ra : Reg)
  /-- R114 -/
  | finv (rd ra : Reg)
  /-- R115: `ra` is the dividend, `rb` the divisor (R76) -/
  | fdiv (rd ra rb : Reg)
  /-- R116: the exponent is the payload read as an unsigned integer -/
  | fpow (rd ra : Reg) (e : Nat)
  /-- R117: the value is the payload read as a signed integer -/
  | fseti (rd : Reg) (v : Int)
  /-- R118 -/
  | fcmp (ra rb : Reg)
  /-- R180: word `i` of bank `bk` -/
  | fld (rd : Reg) (bk : Bank) (i : Nat)
  /-- R181: word `i` of bank `bk` -/
  | fst (ra : Reg) (bk : Bank) (i : Nat)
  /-- R165: `n` is the size itself (R73) -/
  | ntt (bk : Bank) (n : Nat)
  /-- R166: `n` is the size itself (R73) -/
  | intt (bk : Bank) (n : Nat)
  /-- R146 -/
  | rbuild
  /-- R147: table index `a` -/
  | rrd (rd : Reg) (a : Nat)
  /-- R148: table index `i` -/
  | brrd (rd : Reg) (i : Nat)
  deriving DecidableEq, Repr

/-- The opcode of a command. -/
def Instr.opcode : Instr → Opcode
  | .nop => .nop
  | .fadd _ _ _ => .fadd
  | .fsub _ _ _ => .fsub
  | .fmul _ _ _ => .fmul
  | .fneg _ _ => .fneg
  | .finv _ _ => .finv
  | .fdiv _ _ _ => .fdiv
  | .fpow _ _ _ => .fpow
  | .fseti _ _ => .fseti
  | .fcmp _ _ => .fcmp
  | .fld _ _ _ => .fld
  | .fst _ _ _ => .fst
  | .ntt _ _ => .ntt
  | .intt _ _ => .intt
  | .rbuild => .rbuild
  | .rrd _ _ => .rrd
  | .brrd _ _ => .brrd

end Sys2Proof
end

