-- ==== Sys2Proof/WellFormed.lean ====
section
/-!
DEFINITION. Which commands can be encoded: R79, "An assembler refuses an operand that does not fit its field". A register
above 7 and a bank above 15 are shut out by the types `Reg` and `Bank`; the other three ranges are checked here.
-/

namespace Sys2Proof

/-- R73, R79: an `imm` is an unsigned 32-bit number. -/
abbrev ImmFits (i : Nat) : Prop :=
  i < 2 ^ 32

/-- R79: the exponent of `fpow`, `0 <= e < 2^64`. -/
abbrev ExponentFits (e : Nat) : Prop :=
  e < 2 ^ 64

/-- R79: the value of `fseti`, `-2^63 <= v < 2^63`. -/
abbrev ValueFits (v : Int) : Prop :=
  -2 ^ 63 ≤ v ∧ v < 2 ^ 63

/-- R79: every operand of the command fits its field. -/
def Instr.wellFormed : Instr → Bool
  | .nop => true
  | .fadd _ _ _ => true
  | .fsub _ _ _ => true
  | .fmul _ _ _ => true
  | .fneg _ _ => true
  | .finv _ _ => true
  | .fdiv _ _ _ => true
  | .fpow _ _ e => decide (ExponentFits e)
  | .fseti _ v => decide (ValueFits v)
  | .fcmp _ _ => true
  | .fld _ _ i => decide (ImmFits i)
  | .fst _ _ i => decide (ImmFits i)
  | .ntt _ n => decide (ImmFits n)
  | .intt _ n => decide (ImmFits n)
  | .rbuild => true
  | .rrd _ a => decide (ImmFits a)
  | .brrd _ i => decide (ImmFits i)

/-- The check as a proposition. -/
abbrev Instr.WellFormed (i : Instr) : Prop :=
  i.wellFormed = true

end Sys2Proof
end

