-- ==== Sys2Proof/Decode.lean ====
section
/-!
DEFINITION. Decoding and encoding of commands (R70 to R78).

A command is its first 64-bit word and, for FPOW and FSETI, a payload word (R70). No command is fetched from memory (R63), so
the unit that is decoded is the word, not the byte.
-/

namespace Sys2Proof

/-! ### The opcode table -/

/-- R75: the opcodes in the table's order. -/
def Opcode.all : List Opcode :=
  [.nop, .fadd, .fsub, .fmul, .fneg, .finv, .fdiv, .fpow, .fseti, .fcmp, .fld, .fst, .ntt, .intt, .rbuild, .rrd, .brrd]

/-- R75: column `opc`. -/
def Opcode.code : Opcode → BitVec 8
  | .nop => 0x00
  | .fadd => 0x01
  | .fsub => 0x02
  | .fmul => 0x03
  | .fneg => 0x04
  | .finv => 0x05
  | .fdiv => 0x06
  | .fpow => 0x07
  | .fseti => 0x08
  | .fcmp => 0x09
  | .fld => 0x10
  | .fst => 0x11
  | .ntt => 0x20
  | .intt => 0x21
  | .rbuild => 0x30
  | .rrd => 0x31
  | .brrd => 0x32

/-- R75: the row's `mask` in opcode_table.json, a 1 at every bit of the opcode, the reserved bits and the unused fields. -/
def Opcode.mask : Opcode → Word64
  | .nop => 0xFFFFFFFFFFFFFFFF
  | .fadd => 0xFFFFFFFFFFF888FF
  | .fsub => 0xFFFFFFFFFFF888FF
  | .fmul => 0xFFFFFFFFFFF888FF
  | .fneg => 0xFFFFFFFFFFFF88FF
  | .finv => 0xFFFFFFFFFFFF88FF
  | .fdiv => 0xFFFFFFFFFFF888FF
  | .fpow => 0xFFFFFFFFFFFF88FF
  | .fseti => 0xFFFFFFFFFFFFF8FF
  | .fcmp => 0xFFFFFFFFFFF88FFF
  | .fld => 0x00000000FF0FF8FF
  | .fst => 0x00000000FF0F8FFF
  | .ntt => 0x00000000FF0FFFFF
  | .intt => 0x00000000FF0FFFFF
  | .rbuild => 0xFFFFFFFFFFFFFFFF
  | .rrd => 0x00000000FFFFF8FF
  | .brrd => 0x00000000FFFFF8FF

/-- R75: the row's `match` in opcode_table.json. In every row it is the opcode with all other bits 0. -/
def Opcode.pattern (op : Opcode) : Word64 :=
  op.code.setWidth 64

/-- R70: FSETI and FPOW are two words, every other command one. -/
def Opcode.hasPayload : Opcode → Bool
  | .fpow => true
  | .fseti => true
  | .nop | .fadd | .fsub | .fmul | .fneg | .finv | .fdiv | .fcmp | .fld | .fst | .ntt | .intt | .rbuild | .rrd | .brrd => false

/-- The row of R75 whose opcode is these bits, if there is one. -/
def opcodeOf (b : BitVec 8) : Option Opcode :=
  Opcode.all.find? fun op => op.code == b

/-! ### The fields of a command word (R71) -/

/-- R71: bits 7:0. -/
def opcField (w : Word64) : BitVec 8 :=
  w.extractLsb' 0 8

/-- R71: bits 10:8. -/
def rdField (w : Word64) : Reg :=
  (w.extractLsb' 8 3).toFin

/-- R71: bits 14:12. -/
def raField (w : Word64) : Reg :=
  (w.extractLsb' 12 3).toFin

/-- R71: bits 18:16. -/
def rbField (w : Word64) : Reg :=
  (w.extractLsb' 16 3).toFin

/-- R71: bits 23:20. -/
def bkField (w : Word64) : Bank :=
  (w.extractLsb' 20 4).toFin

/-- R71, R73: bits 63:32, an unsigned number. -/
def immField (w : Word64) : Nat :=
  (w.extractLsb' 32 32).toNat

/-- R39, R70: bits 7:0 of a first word alone say whether a payload word follows. -/
def needsPayload (w : Word64) : Bool :=
  match opcodeOf (opcField w) with
  | some op => op.hasPayload
  | none => false

/-! ### Decoding -/

/-- Why a command has no meaning as an instruction. -/
inductive DecodeError where
  /-- R77: the opcode is not in R75 -/
  | illegalOpcode
  /-- R74, R77: a reserved bit or a field that the command does not use is not 0 -/
  | illegalField
  /-- the payload of FPOW or FSETI is missing: not a command of R70, and no command port holds it (log 15) -/
  | missingPayload
  deriving DecidableEq, Repr

/-- R78, the operands of a row: `w0` is the first word and `w1` the payload word. A one-word command does not look at a
payload. -/
def operands (op : Opcode) (w0 : Word64) (w1 : Option Word64) : Except DecodeError Instr :=
  match op with
  | .nop => .ok .nop
  | .fadd => .ok (.fadd (rdField w0) (raField w0) (rbField w0))
  | .fsub => .ok (.fsub (rdField w0) (raField w0) (rbField w0))
  | .fmul => .ok (.fmul (rdField w0) (raField w0) (rbField w0))
  | .fneg => .ok (.fneg (rdField w0) (raField w0))
  | .finv => .ok (.finv (rdField w0) (raField w0))
  | .fdiv => .ok (.fdiv (rdField w0) (raField w0) (rbField w0))
  | .fpow =>
    match w1 with
    | some p => .ok (.fpow (rdField w0) (raField w0) p.toNat)
    | none => .error .missingPayload
  | .fseti =>
    match w1 with
    | some p => .ok (.fseti (rdField w0) p.toInt)
    | none => .error .missingPayload
  | .fcmp => .ok (.fcmp (raField w0) (rbField w0))
  | .fld => .ok (.fld (rdField w0) (bkField w0) (immField w0))
  | .fst => .ok (.fst (raField w0) (bkField w0) (immField w0))
  | .ntt => .ok (.ntt (bkField w0) (immField w0))
  | .intt => .ok (.intt (bkField w0) (immField w0))
  | .rbuild => .ok .rbuild
  | .rrd => .ok (.rrd (rdField w0) (immField w0))
  | .brrd => .ok (.brrd (rdField w0) (immField w0))

/-- R78: the opcode is checked first, then the reserved bits and unused fields, and then the operands are read. -/
def decode (w0 : Word64) (w1 : Option Word64) : Except DecodeError Instr :=
  match opcodeOf (opcField w0) with
  | none => .error .illegalOpcode
  | some op => if w0 &&& op.mask ≠ op.pattern then .error .illegalField else operands op w0 w1

/-! ### Encoding -/

/-- R71: the word whose fields are these and whose reserved bits are 0, `w = (imm << 32) | (bk << 20) | (rb << 16) |
(ra << 12) | (rd << 8) | opc`, as a sum since the fields do not overlap. -/
def formatC (op : Opcode) (rd ra rb : Reg) (bk : Bank) (imm : Nat) : Word64 :=
  BitVec.ofNat 64 (imm * 2 ^ 32 + bk * 2 ^ 20 + rb * 2 ^ 16 + ra * 2 ^ 12 + rd * 2 ^ 8 + op.code.toNat)

/-- R75: the first word of a command. A field that the command does not use is 0 (R74). -/
def Instr.firstWord : Instr → Word64
  | .nop => formatC .nop 0 0 0 0 0
  | .fadd rd ra rb => formatC .fadd rd ra rb 0 0
  | .fsub rd ra rb => formatC .fsub rd ra rb 0 0
  | .fmul rd ra rb => formatC .fmul rd ra rb 0 0
  | .fneg rd ra => formatC .fneg rd ra 0 0 0
  | .finv rd ra => formatC .finv rd ra 0 0 0
  | .fdiv rd ra rb => formatC .fdiv rd ra rb 0 0
  | .fpow rd ra _ => formatC .fpow rd ra 0 0 0
  | .fseti rd _ => formatC .fseti rd 0 0 0 0
  | .fcmp ra rb => formatC .fcmp 0 ra rb 0 0
  | .fld rd bk i => formatC .fld rd 0 0 bk i
  | .fst ra bk i => formatC .fst 0 ra 0 bk i
  | .ntt bk n => formatC .ntt 0 0 0 bk n
  | .intt bk n => formatC .intt 0 0 0 bk n
  | .rbuild => formatC .rbuild 0 0 0 0 0
  | .rrd rd a => formatC .rrd rd 0 0 0 a
  | .brrd rd i => formatC .brrd rd 0 0 0 i

/-- R72, R79: the payload word of FPOW (`e`) and of FSETI (`v mod 2^64`). -/
def Instr.payload : Instr → Option Word64
  | .fpow _ _ e => some (BitVec.ofNat 64 e)
  | .fseti _ v => some (BitVec.ofInt 64 v)
  | .nop | .fadd _ _ _ | .fsub _ _ _ | .fmul _ _ _ | .fneg _ _ | .finv _ _ | .fdiv _ _ _ | .fcmp _ _ | .fld _ _ _
  | .fst _ _ _ | .ntt _ _ | .intt _ _ | .rbuild | .rrd _ _ | .brrd _ _ => none

/-- The words of a command, in the order the host submits them (R70, R234). -/
def encode (i : Instr) : Word64 × Option Word64 :=
  (i.firstWord, i.payload)

/-! ### Words numbered as opcode_table.json numbers them -/

/-- The command whose bits are the low `nbits` bits of `w`: bit 0 is the least significant bit of the first word, and the
payload word's bits count on from 64. -/
def tableWords (nbits w : Nat) : Word64 × Option Word64 :=
  let bits := w % 2 ^ nbits
  let w0 := BitVec.ofNat 64 bits
  (w0, if needsPayload w0 then some (BitVec.ofNat 64 (bits / 2 ^ 64)) else none)

/-- The instruction that the decoder reads from a command whose bits are `w`. -/
def decodeTableWord (nbits w : Nat) : Option Instr :=
  match decode (tableWords nbits w).1 (tableWords nbits w).2 with
  | .ok i => some i
  | .error _ => none

end Sys2Proof
end

