-- ==== Sys2Proof/Machine/Modular.lean ====
section
/-!
DEFINITION. The field functions of the field unit (R100 to R106), on unbounded integers (R11), for a modulus `p`.
-/

namespace Sys2Proof.Machine

/-- R100: `reduce(x) = x mod p` for any integer `x`; the remainder is in `[0, p)` also for a negative `x` (R11). -/
def reduce (p : Nat) (x : Int) : Nat :=
  (x % p).toNat

/-- R101 -/
def fadd (p : Nat) (a b : Nat) : Nat :=
  (a + b) % p

/-- R102 -/
def fsub (p : Nat) (a b : Nat) : Nat :=
  reduce p ((a : Int) - b)

/-- R103: the product is exact before it is reduced. -/
def fmul (p : Nat) (a b : Nat) : Nat :=
  (a * b) % p

/-- R104 -/
def fneg (p : Nat) (a : Nat) : Nat :=
  reduce p ((p : Int) - a)

/-- R106, the loop of binary exponentiation: from `r`, square and multiply for the low `n` bits of `e`, from the top one
down. -/
def powLoop (p : Nat) (a : Nat) (e : Nat) : Nat → Nat → Nat
  | 0, r => r
  | n + 1, r =>
    let sq := fmul p r r
    powLoop p a e n (if e.testBit n then fmul p sq a else sq)

/-- R106: the number of bits of an exponent. -/
def bitLength (e : Nat) : Nat :=
  if e = 0 then 0 else Nat.log2 e + 1

/-- R106: `a^e mod p` by binary exponentiation from `r = 1`, so that `a^0 = 1` for every `a`. -/
def fpow (p : Nat) (a : Nat) (e : Nat) : Nat :=
  powLoop p a e (bitLength e) 1

/-- R105: Fermat's inverse, `a^(p-2) mod p`. It is an inverse for `a ≠ 0`; no command uses it on 0. -/
def finv (p : Nat) (a : Nat) : Nat :=
  fpow p a (p - 2)

end Sys2Proof.Machine
end

