-- ==== Sys2Proof/Config.lean ====
section
/-!
DEFINITION. The configuration a block is built with (R7, R8, R9), and the free values of the model.

A configuration that is not well formed has no block (R206), so a `Config` holds the proof that it is well formed, and a
state holds a `Config`: there is no state of an unsupported block. Log 1.
-/

namespace Sys2Proof

/-- The parameters of R7 that the block's behaviour depends on: the prime `p`, its primitive root `g`, the logarithm `K` of
the longest transform, and the number of buffer banks. -/
structure Params where
  p : Nat
  g : Nat
  K : Nat
  nbank : Nat
  deriving DecidableEq, Repr

/-- A prime, said by its divisors: `p` has no divisor below it but 1. -/
abbrev IsPrime (p : Nat) : Prop :=
  2 ≤ p ∧ ∀ d < p, d ∣ p → d = 1

/-- R8: `g` is a primitive root of `p` when `g^((p-1)/q) mod p` is not 1 for any prime `q` that divides `p - 1`.
DEDUCED (log 3): `g` is itself an element other than 0 of the field, `1 ≤ g < p`. -/
abbrev IsPrimitiveRoot (p g : Nat) : Prop :=
  1 ≤ g ∧ g < p ∧ ∀ q < p, IsPrime q → q ∣ p - 1 → g ^ ((p - 1) / q) % p ≠ 1

/-- R8, with the constraints of R7's table. -/
abbrev Params.WellFormed (c : Params) : Prop :=
  IsPrime c.p ∧ 3 ≤ c.p ∧ c.p < 2 ^ 32 ∧
  1 ≤ c.K ∧ c.K ≤ 27 ∧ 2 ^ c.K ∣ c.p - 1 ∧
  IsPrimitiveRoot c.p c.g ∧
  1 ≤ c.nbank ∧ c.nbank ≤ 16

/-- R8 as a check. -/
def Params.supported (c : Params) : Bool :=
  decide c.WellFormed

/-- The configuration of one block: parameters that are well formed. -/
structure Config extends Params where
  ok : toParams.supported = true
  deriving DecidableEq, Repr

namespace Config

/-- R7: `W = bitlength(p)`, the width of a field word. -/
def width (c : Config) : Nat :=
  Nat.log2 c.p + 1

/-- R26: the number of words of a bank, `2^K`; also the number of entries of BITREV (R28) and one more than the number of
entries of ROOT (R27). -/
def size (c : Config) : Nat :=
  2 ^ c.K

/-- R9: the parameters of the reference configuration. -/
def referenceParams : Params :=
  { p := 998244353, g := 3, K := 10, nbank := 2 }

theorem prime_of_isPrime {p : Nat} (h : IsPrime p) : Nat.Prime p := by
  obtain ⟨h2, hd⟩ := h
  refine Nat.prime_def.mpr ⟨h2, fun m hm => ?_⟩
  rcases Nat.lt_or_ge m p with hlt | hge
  · exact .inl (hd m hlt hm)
  · exact .inr (le_antisymm (Nat.le_of_dvd (by omega) hm) hge)

theorem isPrime_of_prime {p : Nat} (h : Nat.Prime p) : IsPrime p :=
  ⟨h.two_le, fun d hd hdvd => (h.eq_one_or_self_of_dvd d hdvd).resolve_right (by omega)⟩

/-- `p - 1 = 2^23 * 7 * 17` (R9), so a prime divisor of it is 2, 7 or 17. -/
theorem reference_prime_divisors {q : Nat} (hq : Nat.Prime q) (hd : q ∣ 998244353 - 1) :
    q = 2 ∨ q = 7 ∨ q = 17 := by
  have hfac : (998244353 - 1 : Nat) = 2 ^ 23 * 7 * 17 := by norm_num
  rw [hfac] at hd
  rcases hq.dvd_mul.mp hd with h | h
  · rcases hq.dvd_mul.mp h with h | h
    · exact .inl ((Nat.prime_dvd_prime_iff_eq hq Nat.prime_two).mp (hq.dvd_of_dvd_pow h))
    · exact .inr (.inl ((Nat.prime_dvd_prime_iff_eq hq (by norm_num)).mp h))
  · exact .inr (.inr ((Nat.prime_dvd_prime_iff_eq hq (by norm_num)).mp h))

/-- R9: the powers of 3 that show it to be a primitive root of 998244353 (and 998244353 to be prime). -/
theorem reference_root_powers :
    (3 : ZMod 998244353) ^ 499122176 ≠ 1 ∧ (3 : ZMod 998244353) ^ 142606336 ≠ 1 ∧
      (3 : ZMod 998244353) ^ 58720256 ≠ 1 ∧ (3 : ZMod 998244353) ^ 998244352 = 1 := by
  refine ⟨?_, ?_, ?_, ?_⟩ <;> reduce_mod_char <;> decide

/-- R9: 3 is a primitive root of 998244353, in the form of R8. -/
theorem reference_root {q : Nat} (hq : Nat.Prime q) (hd : q ∣ 998244353 - 1) :
    (3 : ZMod 998244353) ^ ((998244353 - 1) / q) ≠ 1 := by
  obtain ⟨h2, h7, h17, -⟩ := reference_root_powers
  rcases reference_prime_divisors hq hd with rfl | rfl | rfl
  · exact h2
  · exact h7
  · exact h17

/-- R9: 998244353 is prime (Lucas: 3 has order `p - 1`). -/
theorem reference_prime : Nat.Prime 998244353 :=
  lucas_primality 998244353 3 reference_root_powers.2.2.2 fun _ hq hd => reference_root hq hd

theorem reference_isPrimitiveRoot : IsPrimitiveRoot 998244353 3 := by
  refine ⟨by norm_num, by norm_num, fun q _ hq hd hone => ?_⟩
  apply reference_root (prime_of_isPrime hq) hd
  have h : ((3 ^ ((998244353 - 1) / q) % 998244353 : Nat) : ZMod 998244353) = ((1 : Nat) : ZMod 998244353) :=
    congrArg _ hone
  rw [ZMod.natCast_mod] at h
  exact_mod_cast h

theorem reference_wellFormed : referenceParams.WellFormed :=
  ⟨isPrime_of_prime reference_prime, by norm_num [referenceParams], by norm_num [referenceParams],
    by norm_num [referenceParams], by norm_num [referenceParams], by norm_num [referenceParams],
    reference_isPrimitiveRoot, by norm_num [referenceParams], by norm_num [referenceParams]⟩

theorem reference_supported : referenceParams.supported = true := by
  rw [Params.supported, decide_eq_true_iff]
  exact reference_wellFormed

/-- R9: the reference configuration. -/
def reference : Config :=
  { referenceParams with ok := reference_supported }

/-- Build a configuration from parameters, where they are well formed (R8). -/
def ofParams (c : Params) : Option Config :=
  if h : c.supported = true then some { c with ok := h } else none

/-- A free value (the spec's "draw", R42, R47, R54): the 32 bits that an unspecified read of the register at a byte offset
(the second argument) returns in an epoch (the first). Nothing is known of it. Log 9. -/
opaque draw : Nat → Nat → Word32

/-- R7, R58: `BASE` is left to the platform, 256-byte aligned. This is `BASE / 256`, and nothing is known of it. Log 4. -/
opaque basePage : Nat

/-- R50: the platform address of the register at byte offset `offset` of the window. -/
def hostAddress (offset : Fin 256) : Nat :=
  256 * basePage + offset

end Config

end Sys2Proof
end

