-- ==== Sys2Proof/Machine/State.lean ====
section
/-!
DEFINITION. The state of the block as plain data (10_state.md), the reasons a step can stop, and the state after reset (R46).

The names follow the spec: `f` holds F0 to F7, `eq` and `lt` are the flags, `cs` is the engine's control state. STATUS,
BUFDATA and FREG0 to FREG7 hold nothing of their own and are views (R34, R41, R42). `turns`, `busRead` and `epoch` are the
model's own fields: the order in which host, engine and reset input move (log 5), what the last host read returned, and the
index of the free values (log 9).
-/

namespace Sys2Proof.Machine

/-- R44: the engine's control state. `busy w0 w1` is the spec's `Busy(c)` for the command `c` of one or two words whose first
word is `w0` (log 15). -/
inductive ControlState where
  | idle
  | pend2 (w0 : Word64)
  | busy (w0 : Word64) (w1 : Option Word64)
  | halted
  deriving DecidableEq, Repr

/-- What a host access does. -/
inductive HostOp where
  | read
  | write (v : Word32)
  deriving DecidableEq, Repr

/-- One host access: what it does, the byte offset in the window (R30, R50) and the number of bytes it moves (R53). -/
structure HostAccess where
  op : HostOp
  offset : Fin 256
  bytes : Nat
  deriving DecidableEq, Repr

/-- One turn of the total order of R60: the engine may take its step, the host makes an access, or the reset input is driven
to a level (R230). -/
inductive Turn where
  | engine
  | host (a : HostAccess)
  | resetInput (asserted : Bool)
  deriving DecidableEq, Repr

/-- R26, R47: the written words of the buffer, as pairs of the word's key and its value; keys rise strictly, and a word with
no pair is unwritten. Log 8. -/
abbrev Memory := List (Nat × Nat)

/-- The state of the block. -/
structure State where
  /-- R7, R31 to R33: the configuration the block is built with -/
  cfg : Config
  /-- R21: F0 to F7 -/
  f : Vector Nat 8
  /-- R23 -/
  cmdcnt : Word32
  /-- R25 -/
  eq : Bool
  /-- R25 -/
  lt : Bool
  /-- R26: the buffer banks -/
  buf : Memory
  /-- R27: ROOT[1] to ROOT[2^K - 1], in that order, once built -/
  root : List Nat
  /-- R28: BITREV[0] to BITREV[2^K - 1], in that order, once built -/
  bitrev : List Nat
  /-- R29 -/
  cvalid : Bool
  /-- R44 -/
  cs : ControlState
  /-- R45 -/
  drop : Bool
  /-- R36 -/
  errcode : Word32
  /-- R38: the low half of the next command word -/
  cmdLo : Word32
  /-- R40 -/
  bufaddr : Word32
  /-- R230: the reset input is asserted -/
  inReset : Bool
  /-- the model's own: the turns to come, the next one first -/
  turns : List Turn
  /-- the model's own: the value that the last host read returned -/
  busRead : Word32
  /-- the model's own: how many host writes, engine steps and changes of the reset input have passed; it indexes the free values
  (R55) -/
  epoch : Nat
  deriving DecidableEq, Repr

/-- The reasons the model stops where the hardware goes on (R213). -/
inductive Fault where
  /-- R47: FLD, NTT or INTT read a buffer word that nothing has written since reset. Safe: the hardware computes with whatever
  the word holds, and the model has no run there. -/
  | unwrittenRead
  deriving DecidableEq, Repr

/-- The reasons the model has no step. -/
inductive Refusal where
  /-- raised by the dispatcher for an instruction that has no meaning yet; safe -/
  | notModelled (mnemonic : String)
  /-- R53: a host access that is not 32 bits wide or whose offset is not a multiple of 4, raised by the host port; safe -/
  | hostAccessForm
  /-- R206: a configuration that is not well formed, raised by `build`; safe -/
  | unsupportedModulus
  /-- log 15: the engine is busy with FPOW or FSETI and holds no payload, which no run reaches; raised by the engine; safe -/
  | missingPayload
  deriving DecidableEq, Repr

/-- R46: the state of a block of configuration `c` after reset. The tables are unspecified there and not readable, so they
hold nothing; the model's own fields are empty (log 12). -/
def State.resetFor (c : Config) : State where
  cfg := c
  f := Vector.replicate 8 0
  cmdcnt := 0
  eq := false
  lt := false
  buf := []
  root := []
  bitrev := []
  cvalid := false
  cs := .idle
  drop := false
  errcode := 0
  cmdLo := 0
  bufaddr := 0
  inReset := false
  turns := []
  busRead := 0
  epoch := 0

/-- The state after reset of the reference block (R9; log 2). -/
def State.reset : State :=
  State.resetFor Config.reference

end Sys2Proof.Machine
end

