-- ==== Sys2Proof/Machine/Ops.lean ====
section
/-!
DEFINITION. The shared operations: field registers, buffer words, retiring a command, raising an error (R203) and returning
from one (R211).
-/

namespace Sys2Proof.Machine

/-! ### Field registers (R21) -/

/-- R12: `F[i]`. -/
def State.reg (s : State) (i : Reg) : Nat :=
  s.f[i]

/-- R12: `F[i] <- v`. -/
def State.setReg (s : State) (i : Reg) (v : Nat) : State :=
  { s with f := s.f.set i v }

/-! ### The buffer (R26, R47) -/

/-- The key of word `i` of bank `b`: the number that BUFADDR holds when it names the word (R40: BANK 31:28, IDX 27:0). A bank
has at most `2^27` words (R7), so two words never share a key. -/
def wordKey (b i : Nat) : Nat :=
  b * 2 ^ 28 + i

/-- The canonical form: keys rise strictly. (An unwritten word has no pair, so no pair is redundant.) -/
abbrev Memory.wf (m : Memory) : Prop :=
  m.Pairwise fun x y => x.1 < y.1

/-- The value of a word, `none` where nothing has written it (R47). -/
def Memory.read : Memory → Nat → Option Nat
  | [], _ => none
  | (k, v) :: m, a => if a = k then some v else Memory.read m a

/-- Write a word and mark it written (R47), keeping the canonical form. -/
def Memory.write : Memory → Nat → Nat → Memory
  | [], a, x => [(a, x)]
  | (k, v) :: m, a, x =>
    if a < k then (a, x) :: (k, v) :: m
    else if a = k then (a, x) :: m
    else (k, v) :: Memory.write m a x

/-- The `n` words of bank `b` from word `i` on, `none` where one of them is unwritten (R168). -/
def Memory.readRun (m : Memory) (b : Nat) : (i n : Nat) → Option (List Nat)
  | _, 0 => some []
  | i, n + 1 =>
    match m.read (wordKey b i), Memory.readRun m b (i + 1) n with
    | some v, some vs => some (v :: vs)
    | _, _ => none

/-- Write words to bank `b` from word `i` on (R168). -/
def Memory.writeRun (m : Memory) (b : Nat) : (i : Nat) → List Nat → Memory
  | _, [] => m
  | i, v :: vs => Memory.writeRun (m.write (wordKey b i) v) b (i + 1) vs

/-- R12: `BufRead(b, i)`, `none` for an unwritten word. -/
def State.bufRead (s : State) (b i : Nat) : Option Nat :=
  s.buf.read (wordKey b i)

/-- R12: `BufWrite(b, i, v)`. -/
def State.bufWrite (s : State) (b i : Nat) (v : Nat) : State :=
  { s with buf := s.buf.write (wordKey b i) v }

/-! ### Retiring a command, raising an error, returning from one -/

/-- R23, R44: a command that retires adds 1 to CMDCNT, modulo `2^32`, and the engine becomes Idle. -/
def State.retire (s : State) : State :=
  { s with cmdcnt := s.cmdcnt + 1, cs := .idle }

/-- R201: the causes of errors, one for each row of the table but UnsupportedModulus, which no command raises (R206). -/
inductive Cause where
  | inverseOfZero
  | divisionByZero
  | sizeNotPowerOfTwo
  | sizeTooLarge
  | indexOutOfRange
  | bankOutOfRange
  | tableIndexOutOfRange
  | illegalOpcode
  | illegalField
  deriving DecidableEq, Repr

/-- R201: column CODE. -/
def causeCode : Cause → BitVec 8
  | .inverseOfZero | .divisionByZero => 1
  | .sizeNotPowerOfTwo | .sizeTooLarge | .indexOutOfRange | .bankOutOfRange | .tableIndexOutOfRange => 2
  | .illegalOpcode | .illegalField => 4

/-- R201: column INFO. -/
def causeInfo : Cause → BitVec 8
  | .inverseOfZero => 1
  | .divisionByZero => 2
  | .sizeNotPowerOfTwo => 1
  | .sizeTooLarge => 2
  | .indexOutOfRange => 3
  | .bankOutOfRange => 4
  | .tableIndexOutOfRange => 5
  | .illegalOpcode => 1
  | .illegalField => 2

/-- R36, R203: ERRCODE for an error of cause `c` in a command whose first word has `opc` in bits 7:0. -/
def errorWord (opc : BitVec 8) (c : Cause) : Word32 :=
  0#8 ++ opc ++ causeInfo c ++ causeCode c

/-- R203: raise an error. ERRCODE is written, the engine is Halted, and nothing else changes. The meaning of a decoded
command gives the opcode of its row, which is bits 7:0 of its word (log 19). -/
def State.raise (s : State) (opc : BitVec 8) (c : Cause) : State :=
  { s with errcode := errorWord opc c, cs := .halted }

/-- R35, R211: return from an error. In the Halted state ERRCODE becomes 0 and the engine Idle; in any other state nothing
happens. -/
def State.clearError (s : State) : State :=
  match s.cs with
  | .halted => { s with errcode := 0, cs := .idle }
  | .idle | .pend2 _ | .busy _ _ => s

/-! ### Free values -/

/-- R42, R47, R54, R230: a draw, the unspecified 32-bit value that a read of the register at a byte offset returns. R55: reading
the register again with no write or engine step between returns the same value, since the epoch is then the same (log 9). -/
def State.drawAt (s : State) (offset : Nat) : Word32 :=
  Config.draw s.epoch offset

/-- R55: a host write, an engine step or a change of the reset input has come, and later draws are other free values. -/
def State.nextEpoch (s : State) : State :=
  { s with epoch := s.epoch + 1 }

/-! ### Building a block -/

/-- R206: a configuration that is not well formed is refused; of a well-formed one there is a block, which comes out of
reset. -/
def build (c : Params) : Host.Outcome State Fault Refusal :=
  match Config.ofParams c with
  | some cfg => .next (State.resetFor cfg)
  | none => .refused .unsupportedModulus

end Sys2Proof.Machine
end

