-- ==== Sys2Proof/Machine/Operands.lean ====
section
/-!
DEFINITION. The operand checks of the commands, in the order of R205. Each answers the cause that the command reports, or
`none` where its operands are in range. The checks of an operand's VALUE (a zero divisor) stand in the meanings of FINV and
FDIV.
-/

namespace Sys2Proof.Machine

/-- R73, R201: only `bk < NBANK` names a bank. -/
def bankCause (c : Config) (bk : Bank) : Option Cause :=
  if c.nbank ≤ bk then some .bankOutOfRange else none

/-- R180, R181: the operands of FLD and FST, the bank before the index. -/
def wordCause (c : Config) (bk : Bank) (i : Nat) : Option Cause :=
  match bankCause c bk with
  | some e => some e
  | none => if c.size ≤ i then some .indexOutOfRange else none

/-- R165: a size is a power of two when it is not 0 and `n AND (n - 1)` is 0. -/
def isPowerOfTwo (n : Nat) : Bool :=
  decide (n ≠ 0) && decide (n &&& (n - 1) = 0)

/-- R165, R166: the operands of NTT and INTT, the bank first, then the size, a power of two before the maximum. -/
def transformCause (c : Config) (bk : Bank) (n : Nat) : Option Cause :=
  match bankCause c bk with
  | some e => some e
  | none =>
    if isPowerOfTwo n then
      if c.size < n then some .sizeTooLarge else none
    else some .sizeNotPowerOfTwo

/-- R147: ROOT has the entries 1 to `2^K - 1`. -/
def rootIndexCause (c : Config) (a : Nat) : Option Cause :=
  if a = 0 ∨ c.size ≤ a then some .tableIndexOutOfRange else none

/-- R148: BITREV has the entries 0 to `2^K - 1`. -/
def bitrevIndexCause (c : Config) (i : Nat) : Option Cause :=
  if c.size ≤ i then some .tableIndexOutOfRange else none

end Sys2Proof.Machine
end

