-- ==== Sys2Proof/Machine/BufferTransfer.lean ====
section
/-!
DEFINITION. The buffer transfer commands (43_buffer_transfer.md R180, R181).
-/

namespace Sys2Proof.Machine

/-- R180: the word is canonical, so it is not reduced. An unwritten word is the model fault of R47. -/
def execFld (rd : Reg) (bk : Bank) (i : Nat) (s : State) : Host.Outcome State Fault Refusal :=
  match wordCause s.cfg bk i with
  | some e => .next (s.raise Opcode.fld.code e)
  | none =>
    match s.bufRead bk i with
    | some v => .next (s.setReg rd v).retire
    | none => .fault .unwrittenRead

/-- R181 -/
def execFst (ra : Reg) (bk : Bank) (i : Nat) (s : State) : Host.Outcome State Fault Refusal :=
  match wordCause s.cfg bk i with
  | some e => .next (s.raise Opcode.fst.code e)
  | none => .next (s.bufWrite bk i (s.reg ra)).retire

end Sys2Proof.Machine
end

