-- ==== Sys2Proof/Machine/Flags.lean ====
section
/-!
DEFINITION. The flags EQ and LT (R25, R107, R118) and the status word that shows them (R34).
-/

namespace Sys2Proof.Machine

/-- R107, R118: EQ of two field elements. -/
def eqFlag (a b : Nat) : Bool :=
  decide (a = b)

/-- R107, R118: LT of two field elements, as integers in `[0, p)`. -/
def ltFlag (a b : Nat) : Bool :=
  decide (a < b)

/-- R118: write both flags. -/
def State.setFlags (s : State) (a b : Nat) : State :=
  { s with eq := eqFlag a b, lt := ltFlag a b }

/-- R34: BUSY. -/
def busyBit (cs : ControlState) : Bool :=
  match cs with
  | .busy _ _ => true
  | .idle | .pend2 _ | .halted => false

/-- R34: PEND2. -/
def pend2Bit (cs : ControlState) : Bool :=
  match cs with
  | .pend2 _ => true
  | .idle | .busy _ _ | .halted => false

/-- R34: ERR. -/
def errBit (cs : ControlState) : Bool :=
  match cs with
  | .halted => true
  | .idle | .pend2 _ | .busy _ _ => false

/-- R34: STATUS, bits 0 to 6; bits 31:7 read 0. -/
def State.status (s : State) : Word32 :=
  0#25 ++ BitVec.ofBool s.lt ++ BitVec.ofBool s.eq ++ BitVec.ofBool s.cvalid ++ BitVec.ofBool s.drop ++
    BitVec.ofBool (errBit s.cs) ++ BitVec.ofBool (pend2Bit s.cs) ++ BitVec.ofBool (busyBit s.cs)

end Sys2Proof.Machine
end

