-- ==== Sys2Proof/Machine/FieldArith.lean ====
section
/-!
DEFINITION. The field arithmetic commands (40_field_arith.md R110 to R119). Sources are read before the destination is
written (R13), so `rd` may be one of them.
-/

namespace Sys2Proof.Machine

/-- R119: NOP does nothing but retire. -/
def execNop (s : State) : Host.Outcome State Fault Refusal :=
  .next s.retire

/-- R110 -/
def execFadd (rd ra rb : Reg) (s : State) : Host.Outcome State Fault Refusal :=
  .next (s.setReg rd (fadd s.cfg.p (s.reg ra) (s.reg rb))).retire

/-- R111 -/
def execFsub (rd ra rb : Reg) (s : State) : Host.Outcome State Fault Refusal :=
  .next (s.setReg rd (fsub s.cfg.p (s.reg ra) (s.reg rb))).retire

/-- R112 -/
def execFmul (rd ra rb : Reg) (s : State) : Host.Outcome State Fault Refusal :=
  .next (s.setReg rd (fmul s.cfg.p (s.reg ra) (s.reg rb))).retire

/-- R113 -/
def execFneg (rd ra : Reg) (s : State) : Host.Outcome State Fault Refusal :=
  .next (s.setReg rd (fneg s.cfg.p (s.reg ra))).retire

/-- R114: the inverse of 0 raises DivisionByZero INFO 1. -/
def execFinv (rd ra : Reg) (s : State) : Host.Outcome State Fault Refusal :=
  if s.reg ra = 0 then .next (s.raise Opcode.finv.code .inverseOfZero)
  else .next (s.setReg rd (finv s.cfg.p (s.reg ra))).retire

/-- R115: division by 0 raises DivisionByZero INFO 2, whatever the dividend is. -/
def execFdiv (rd ra rb : Reg) (s : State) : Host.Outcome State Fault Refusal :=
  if s.reg rb = 0 then .next (s.raise Opcode.fdiv.code .divisionByZero)
  else .next (s.setReg rd (fmul s.cfg.p (s.reg ra) (finv s.cfg.p (s.reg rb)))).retire

/-- R116 -/
def execFpow (rd ra : Reg) (e : Nat) (s : State) : Host.Outcome State Fault Refusal :=
  .next (s.setReg rd (fpow s.cfg.p (s.reg ra) e)).retire

/-- R117 -/
def execFseti (rd : Reg) (v : Int) (s : State) : Host.Outcome State Fault Refusal :=
  .next (s.setReg rd (reduce s.cfg.p v)).retire

/-- R118 -/
def execFcmp (ra rb : Reg) (s : State) : Host.Outcome State Fault Refusal :=
  .next (s.setFlags (s.reg ra) (s.reg rb)).retire

end Sys2Proof.Machine
end

