-- ==== Sys2Proof/Machine/Tables.lean ====
section
/-!
DEFINITION. The root-of-unity cache: the contents of ROOT and BITREV (R140 to R142), its build (R144, R145) and reads of it.
-/

namespace Sys2Proof.Machine

/-- R141: `ω = g^((p-1)/2^K) mod p`. -/
def principalRoot (c : Config) : Nat :=
  fpow c.p c.g ((c.p - 1) / c.size)

/-- R141: `ω_L = ω^(2^K / L) mod p`. -/
def rootOfUnity (c : Config) (L : Nat) : Nat :=
  fpow c.p (principalRoot c) (c.size / L)

/-- R140: the length `L = 2^s` with `s = floor(log2 a) + 1` whose row holds table index `a`. -/
def rowLength (a : Nat) : Nat :=
  2 ^ (Nat.log2 a + 1)

/-- R140, R141: the built contents of `ROOT[a]`, that is `ω_L^k mod p` for `a = L/2 + k`. -/
def rootEntry (c : Config) (a : Nat) : Nat :=
  fpow c.p (rootOfUnity c (rowLength a)) (a - rowLength a / 2)

/-- R142: `rev_m(i)`, whose bit `j` is bit `m - 1 - j` of `i`. Each step takes the lowest bit of `i` as the highest of `m`. -/
def bitReverse : (m i : Nat) → Nat
  | 0, _ => 0
  | m + 1, i => i % 2 * 2 ^ m + bitReverse m (i / 2)

/-- R144: every entry `ROOT[1 .. 2^K - 1]`. -/
def builtRoot (c : Config) : List Nat :=
  (List.range (c.size - 1)).map fun j => rootEntry c (j + 1)

/-- R144: every entry `BITREV[0 .. 2^K - 1]`. -/
def builtBitrev (c : Config) : List Nat :=
  (List.range c.size).map fun i => bitReverse c.K i

/-- R145: build the tables if they are not built. -/
def State.ensureCache (s : State) : State :=
  if s.cvalid then s
  else { s with root := builtRoot s.cfg, bitrev := builtBitrev s.cfg, cvalid := true }

/-- R12: `ROOT[a]`, for `a ≥ 1` (`ROOT[0]` does not exist, R27). Beyond a table's entries the answer is 0 (log 13); no run
reads there. -/
def rootAt (root : List Nat) (a : Nat) : Nat :=
  root.getD (a - 1) 0

/-- R12: `BITREV[i]`. Beyond a table's entries the answer is 0 (log 13); no run reads there. -/
def bitrevAt (bitrev : List Nat) (i : Nat) : Nat :=
  bitrev.getD i 0

end Sys2Proof.Machine
end

