-- ==== Sys2Proof/Machine/RootCache.lean ====
section
/-!
DEFINITION. The commands of the root-of-unity cache (41_root_cache.md R146 to R148).
-/

namespace Sys2Proof.Machine

/-- R146 -/
def execRbuild (s : State) : Host.Outcome State Fault Refusal :=
  .next s.ensureCache.retire

/-- R147: the cache is built only if the index names an entry. -/
def execRrd (rd : Reg) (a : Nat) (s : State) : Host.Outcome State Fault Refusal :=
  match rootIndexCause s.cfg a with
  | some e => .next (s.raise Opcode.rrd.code e)
  | none => .next (s.ensureCache.setReg rd (rootAt s.ensureCache.root a)).retire

/-- R148 -/
def execBrrd (rd : Reg) (i : Nat) (s : State) : Host.Outcome State Fault Refusal :=
  match bitrevIndexCause s.cfg i with
  | some e => .next (s.raise Opcode.brrd.code e)
  | none => .next (s.ensureCache.setReg rd (bitrevAt s.ensureCache.bitrev i)).retire

end Sys2Proof.Machine
end

