-- ==== Sys2Proof/Machine/Network.lean ====
section
/-!
DEFINITION. The transform network of the NTT engine, step by step (R161 to R164), on the working copy `a[0 .. n-1]`, a list
of `n = 2^m` words. Each step builds its whole output from its whole input: butterflies of one layer touch disjoint pairs
(R163), and the permutation's swaps leave the old `a[rev_m(i)]` at `i` (R162). Log 14.
-/

namespace Sys2Proof.Machine

/-- The word at position `i` of a working copy; no step reads outside it. -/
def wordAt (a : List Nat) (i : Nat) : Nat :=
  a.getD i 0

/-- R161: keep position 0 and reverse positions `1 .. n-1`. -/
def reverseTail (a : List Nat) : List Nat :=
  (List.range a.length).map fun j => if j = 0 then wordAt a 0 else wordAt a (a.length - j)

/-- R162: the word from position `BITREV[i] >> (K - m)` comes to position `i`. -/
def permute (bitrev : List Nat) (K m : Nat) (a : List Nat) : List Nat :=
  (List.range a.length).map fun i => wordAt a (bitrevAt bitrev i >>> (K - m))

/-- R163: the word at position `t` after the layer of length `L = 2^s`, with `h = L/2`. Position `t = j + k` of the lower
half of its block (`k < h`) gets `u + v`, position `t = j + k + h` of the upper half `u - v`, where `u = a[j+k]` and
`v = a[j+k+h] * ROOT[h + k]`. -/
def butterfly (p : Nat) (root : List Nat) (s : Nat) (a : List Nat) (t : Nat) : Nat :=
  let h := 2 ^ (s - 1)
  let r := t % 2 ^ s
  if r < h then fadd p (wordAt a t) (fmul p (wordAt a (t + h)) (rootAt root (h + r)))
  else fsub p (wordAt a (t - h)) (fmul p (wordAt a t) (rootAt root (h + (r - h))))

/-- R163: layer `s`. -/
def layer (p : Nat) (root : List Nat) (s : Nat) (a : List Nat) : List Nat :=
  (List.range a.length).map (butterfly p root s a)

/-- R163: layers `1 .. m`, in that order. -/
def network (p : Nat) (root : List Nat) : (m : Nat) → List Nat → List Nat
  | 0, a => a
  | m + 1, a => layer p root (m + 1) (network p root m a)

/-- R164: multiply every word by `finv(n mod p)`. -/
def scale (p n : Nat) (a : List Nat) : List Nat :=
  a.map fun x => fmul p x (finv p (n % p))

/-- R165: steps 2 and 3, with the tables given. -/
def forwardSteps (p K : Nat) (root : List Nat) (bitrev : List Nat) (a : List Nat) : List Nat :=
  let m := Nat.log2 a.length
  network p root m (permute bitrev K m a)

/-- R166: steps 1 to 4, with the tables given. -/
def inverseSteps (p K : Nat) (root : List Nat) (bitrev : List Nat) (a : List Nat) : List Nat :=
  scale p a.length (forwardSteps p K root bitrev (reverseTail a))

end Sys2Proof.Machine
end

