-- ==== Sys2Proof/Machine/Transform.lean ====
section
/-!
DEFINITION. The transform commands (42_ntt.md R165, R166). All `n` words are read before any is written, and all `n` are
written (R168); if one of them is unwritten the model faults before any write (R47, R168).
-/

namespace Sys2Proof.Machine

/-- R165, R166: the common shape of both commands: the checks, the cache, one read of `n` words, the steps, one write of `n`
words. -/
def transform (op : Opcode) (steps : State → List Nat → List Nat) (bk : Bank) (n : Nat) (s : State) :
    Host.Outcome State Fault Refusal :=
  match transformCause s.cfg bk n with
  | some e => .next (s.raise op.code e)
  | none =>
    match s.ensureCache.buf.readRun bk 0 n with
    | some a =>
      .next ({ s.ensureCache with buf := s.ensureCache.buf.writeRun bk 0 (steps s.ensureCache a) }).retire
    | none => .fault .unwrittenRead

/-- R165, with the tables that the state holds. -/
def forwardOf (s : State) (a : List Nat) : List Nat :=
  forwardSteps s.cfg.p s.cfg.K s.root s.bitrev a

/-- R166, with the tables that the state holds. -/
def inverseOf (s : State) (a : List Nat) : List Nat :=
  inverseSteps s.cfg.p s.cfg.K s.root s.bitrev a

/-- R165 -/
def execNtt (bk : Bank) (n : Nat) (s : State) : Host.Outcome State Fault Refusal :=
  transform .ntt forwardOf bk n s

/-- R166 -/
def execIntt (bk : Bank) (n : Nat) (s : State) : Host.Outcome State Fault Refusal :=
  transform .intt inverseOf bk n s

end Sys2Proof.Machine
end

