-- ==== Sys2Proof/Machine/Dispatch.lean ====
section
/-!
DEFINITION. The meaning of each command: one arm per constructor of Instr.
-/

namespace Sys2Proof.Machine

def exec (i : Instr) (s : State) : Host.Outcome State Fault Refusal :=
  match i with
  | .nop => Sys2Proof.Machine.execNop s
  | .fadd rd ra rb => Sys2Proof.Machine.execFadd rd ra rb s
  | .fsub rd ra rb => Sys2Proof.Machine.execFsub rd ra rb s
  | .fmul rd ra rb => Sys2Proof.Machine.execFmul rd ra rb s
  | .fneg rd ra => Sys2Proof.Machine.execFneg rd ra s
  | .finv rd ra => Sys2Proof.Machine.execFinv rd ra s
  | .fdiv rd ra rb => Sys2Proof.Machine.execFdiv rd ra rb s
  | .fpow rd ra e => Sys2Proof.Machine.execFpow rd ra e s
  | .fseti rd v => Sys2Proof.Machine.execFseti rd v s
  | .fcmp ra rb => Sys2Proof.Machine.execFcmp ra rb s
  | .fld rd bk k => Sys2Proof.Machine.execFld rd bk k s
  | .fst ra bk k => Sys2Proof.Machine.execFst ra bk k s
  | .ntt bk n => Sys2Proof.Machine.execNtt bk n s
  | .intt bk n => Sys2Proof.Machine.execIntt bk n s
  | .rbuild => Sys2Proof.Machine.execRbuild s
  | .rrd rd a => Sys2Proof.Machine.execRrd rd a s
  | .brrd rd k => Sys2Proof.Machine.execBrrd rd k s

end Sys2Proof.Machine
end

