-- ==== Sys2Proof/Machine/HostPort.lean ====
section
/-!
DEFINITION. The host register window: which register an offset names (R30), what a read returns (R31 to R43, R56, R57), what
a write does, and the command port (R39).
-/

namespace Sys2Proof.Machine

/-- R30: the registers of the window. -/
inductive HostReg where
  | cfg | mod | gen | status | ctrl | errcode | cmdcnt | cmdLo | cmdHi | bufaddr | bufdata
  | freg (i : Reg)
  | reserved
  deriving DecidableEq, Repr

/-- R30: the register at a byte offset that is a multiple of 4. -/
def hostRegAt (offset : Nat) : HostReg :=
  if offset = 0x00 then .cfg
  else if offset = 0x04 then .mod
  else if offset = 0x08 then .gen
  else if offset = 0x0C then .status
  else if offset = 0x10 then .ctrl
  else if offset = 0x14 then .errcode
  else if offset = 0x18 then .cmdcnt
  else if offset = 0x20 then .cmdLo
  else if offset = 0x24 then .cmdHi
  else if offset = 0x28 then .bufaddr
  else if offset = 0x2C then .bufdata
  else if 0x40 ≤ offset ∧ offset ≤ 0x5C then .freg (Fin.ofNat 8 ((offset - 0x40) / 4))
  else .reserved

/-- R31: CFG, with `NF - 1 = 7`. -/
def cfgWord (c : Config) : Word32 :=
  0#20 ++ 7#3 ++ BitVec.ofNat 4 (c.nbank - 1) ++ BitVec.ofNat 5 c.K

/-- R40: the bank that BUFADDR names. -/
def State.addrBank (s : State) : Nat :=
  (s.bufaddr.extractLsb' 28 4).toNat

/-- R40: the word index that BUFADDR names. -/
def State.addrIndex (s : State) : Nat :=
  (s.bufaddr.extractLsb' 0 28).toNat

/-- R57: BUFADDR names a word of the buffer. -/
def State.addrNamesWord (s : State) : Bool :=
  decide (s.addrBank < s.cfg.nbank) && decide (s.addrIndex < s.cfg.size)

/-- R30: the byte offset of BUFDATA. -/
def bufdataOffset : Nat := 0x2C

/-- R30: the byte offset of FREGi. -/
def fregOffset (i : Reg) : Nat := 0x40 + 4 * i

/-- R56, R57: a read of BUFDATA. Where BUFADDR names no word it sets DROP, as R45 and R57 say, although R55 says that no read has
a side effect. DEDUCED, log 10. -/
def readBufdata (s : State) : Word32 × State :=
  match s.cs with
  | .busy _ _ => (s.drawAt bufdataOffset, s)
  | .idle | .pend2 _ | .halted =>
    if s.addrNamesWord then
      match s.bufRead s.addrBank s.addrIndex with
      | some v => (BitVec.ofNat 32 v, s)
      | none => (s.drawAt bufdataOffset, s)
    else (0, { s with drop := true })

/-- R42: a read of FREGi. -/
def readFreg (i : Reg) (s : State) : Word32 × State :=
  match s.cs with
  | .busy _ _ => (s.drawAt (fregOffset i), s)
  | .idle | .pend2 _ | .halted => (BitVec.ofNat 32 (s.reg i), s)

/-- A host read: the value it returns and the state after it (R31 to R43). -/
def hostRead (r : HostReg) (s : State) : Word32 × State :=
  match r with
  | .cfg => (cfgWord s.cfg, s)
  | .mod => (BitVec.ofNat 32 s.cfg.p, s)
  | .gen => (BitVec.ofNat 32 s.cfg.g, s)
  | .status => (s.status, s)
  | .ctrl => (0, s)
  | .errcode => (s.errcode, s)
  | .cmdcnt => (s.cmdcnt, s)
  | .cmdLo => (0, s)
  | .cmdHi => (0, s)
  | .bufaddr => (s.bufaddr, s)
  | .bufdata => readBufdata s
  | .freg i => readFreg i s
  | .reserved => (0, s)

/-- R35: CTRL bit 1, CLRDROP. -/
def State.clearDrop (s : State) : State :=
  { s with drop := false }

/-- R35: CTRL bit 2, CANCEL: a held first word is dropped; in any other state nothing happens. -/
def State.cancel (s : State) : State :=
  match s.cs with
  | .pend2 _ => { s with cs := .idle }
  | .idle | .busy _ _ | .halted => s

/-- R35: a write of CTRL does CLRERR (bit 0), CLRDROP (bit 1) and CANCEL (bit 2), in this order. -/
def writeCtrl (v : Word32) (s : State) : State :=
  let s1 := if v.getLsbD 0 then s.clearError else s
  let s2 := if v.getLsbD 1 then s1.clearDrop else s1
  if v.getLsbD 2 then s2.cancel else s2

/-- R39: the word `w` is presented to the command port. -/
def submit (w : Word64) (s : State) : State :=
  match s.cs with
  | .idle => if needsPayload w then { s with cs := .pend2 w } else { s with cs := .busy w none }
  | .pend2 w0 => { s with cs := .busy w0 (some w) }
  | .busy _ _ => { s with drop := true }
  | .halted => { s with drop := true }

/-- R56, R57: a write of BUFDATA. -/
def writeBufdata (v : Word32) (s : State) : State :=
  match s.cs with
  | .busy _ _ => { s with drop := true }
  | .idle | .pend2 _ | .halted =>
    if s.addrNamesWord then s.bufWrite s.addrBank s.addrIndex (v.toNat % s.cfg.p)
    else { s with drop := true }

/-- A host write (R31 to R43). Writes to read-only registers and reserved offsets are ignored (R43). -/
def hostWrite (r : HostReg) (v : Word32) (s : State) : State :=
  match r with
  | .cfg | .mod | .gen | .status | .errcode | .cmdcnt | .freg _ | .reserved => s
  | .ctrl => writeCtrl v s
  | .cmdLo => { s with cmdLo := v }
  | .cmdHi => submit (v ++ s.cmdLo) s
  | .bufaddr => { s with bufaddr := v }
  | .bufdata => writeBufdata v s

/-- R53: the only accesses that have a meaning are 32 bits wide at an offset that is a multiple of 4. Log 16. -/
def HostAccess.legal (a : HostAccess) : Bool :=
  decide (a.bytes = 4) && decide ((a.offset : Nat) % 4 = 0)

/-- The value of a read goes to the host. -/
def State.answer (r : Word32 × State) : State :=
  { r.2 with busRead := r.1 }

/-- A host access. Every write begins a new epoch of the draws and no read does (R55). While reset is asserted a write has no
effect on the block and a read returns a draw (R230). An access without a meaning is refused (R53). -/
def hostAccess (a : HostAccess) (s : State) : Host.Outcome State Fault Refusal :=
  if a.legal then
    match a.op with
    | .read => .next (State.answer (if s.inReset then (s.drawAt a.offset, s) else hostRead (hostRegAt a.offset) s))
    | .write v => .next (if s.inReset then s.nextEpoch else hostWrite (hostRegAt a.offset) v s.nextEpoch)
  else .refused .hostAccessForm

end Sys2Proof.Machine
end

