-- ==== Sys2Proof/Machine/Engine.lean ====
section
/-!
DEFINITION. What moves: the engine's step (R44, R78), the reset input (R230) and one turn of the schedule (R60).
-/

namespace Sys2Proof.Machine

/-- R78: execute the command whose first word is `w0` and whose payload, if any, is `w1`. -/
def execute (w0 : Word64) (w1 : Option Word64) (s : State) : Host.Outcome State Fault Refusal :=
  match decode w0 w1 with
  | .ok i => exec i s
  | .error .illegalOpcode => .next (s.raise (opcField w0) .illegalOpcode)
  | .error .illegalField => .next (s.raise (opcField w0) .illegalField)
  | .error .missingPayload => .refused .missingPayload

/-- R44: the engine's only step is from Busy; in any other control state, and while reset is asserted (R230), it does
nothing. Its step begins a new epoch of the draws (R55). -/
def engineTurn (s : State) : Host.Outcome State Fault Refusal :=
  if s.inReset then .next s
  else
    match s.cs with
    | .busy w0 w1 => execute w0 w1 s.nextEpoch
    | .idle | .pend2 _ | .halted => .next s

/-- R46, R230: the block's state as reset leaves it. The schedule and what the host last read are as they were, and a new epoch
of the draws begins. -/
def State.resetBlock (s : State) : State :=
  { State.resetFor s.cfg with turns := s.turns, busRead := s.busRead, epoch := s.epoch + 1 }

/-- R230: the reset input is driven to a level. Asserting it abandons a command in progress; when it is deasserted the state
is that of R46. Driving it low when it is low does nothing. DESIGN CHOICE, log 11. -/
def resetTurn (asserted : Bool) (s : State) : State :=
  if asserted then { s.resetBlock with inReset := true }
  else if s.inReset then s.resetBlock
  else s

/-- One turn. -/
def takeTurn (t : Turn) (s : State) : Host.Outcome State Fault Refusal :=
  match t with
  | .engine => engineTurn s
  | .host a => hostAccess a s
  | .resetInput asserted => .next (resetTurn asserted s)

/-- The next turn of the schedule. When it is empty the host has nothing more to do, and the engine takes the turn (log 6). -/
def nextTurn (s : State) : Host.Outcome State Fault Refusal :=
  match s.turns with
  | [] => engineTurn s
  | t :: rest => takeTurn t { s with turns := rest }

/-- The command `w0`, `w1` accepted and the engine's turn next, with reset not asserted. -/
def State.withCommand (s : State) (w0 : Word64) (w1 : Option Word64) : State :=
  { s with cs := .busy w0 w1, inReset := false, turns := .engine :: s.turns }

end Sys2Proof.Machine
end

