-- ==== Sys2Proof/Machine/Step.lean ====
section
/-!
DEFINITION. One step of the machine: one turn of the schedule (log 5).
-/

namespace Sys2Proof.Machine

def step (s : State) : Host.Outcome State Fault Refusal :=
  nextTurn s

/-- The block holds the command whose bits are `w` (numbered as opcode_table.json numbers them) as accepted, and the engine's
turn is next: the very next step executes it. The block fetches nothing (R24), so a command comes to it from the host; this
stands for the CMD_LO and CMD_HI writes that submit it (log 5). -/
def State.withFetchWord (s : State) (nbits w : Nat) : State :=
  s.withCommand (tableWords nbits w).1 (tableWords nbits w).2

end Sys2Proof.Machine
end

