-- ==== Sys2Proof/Machine/Assembly.lean ====
section
/-!
DEFINITION. The assembly syntax (R79) and the pseudo-instructions with their expansions (R80). The machine does not use them.
Log 20.
-/

namespace Sys2Proof.Machine

/-- R79: a field register operand, `f0` to `f7`. -/
def regText (r : Reg) : String :=
  "f" ++ toString (r : Nat)

/-- R79: a bank operand, `b0` to `b15`. -/
def bankText (bk : Bank) : String :=
  "b" ++ toString (bk : Nat)

/-- R79: one command, in lower case, with decimal numbers. -/
def assembly (i : Instr) : String :=
  match i with
  | .nop => "nop"
  | .fadd rd ra rb => "fadd " ++ regText rd ++ ", " ++ regText ra ++ ", " ++ regText rb
  | .fsub rd ra rb => "fsub " ++ regText rd ++ ", " ++ regText ra ++ ", " ++ regText rb
  | .fmul rd ra rb => "fmul " ++ regText rd ++ ", " ++ regText ra ++ ", " ++ regText rb
  | .fneg rd ra => "fneg " ++ regText rd ++ ", " ++ regText ra
  | .finv rd ra => "finv " ++ regText rd ++ ", " ++ regText ra
  | .fdiv rd ra rb => "fdiv " ++ regText rd ++ ", " ++ regText ra ++ ", " ++ regText rb
  | .fpow rd ra e => "fpow " ++ regText rd ++ ", " ++ regText ra ++ ", " ++ toString e
  | .fseti rd v => "fseti " ++ regText rd ++ ", " ++ toString v
  | .fcmp ra rb => "fcmp " ++ regText ra ++ ", " ++ regText rb
  | .fld rd bk k => "fld " ++ regText rd ++ ", " ++ bankText bk ++ "[" ++ toString k ++ "]"
  | .fst ra bk k => "fst " ++ regText ra ++ ", " ++ bankText bk ++ "[" ++ toString k ++ "]"
  | .ntt bk n => "ntt " ++ bankText bk ++ ", " ++ toString n
  | .intt bk n => "intt " ++ bankText bk ++ ", " ++ toString n
  | .rbuild => "rbuild"
  | .rrd rd a => "rrd " ++ regText rd ++ ", " ++ toString a
  | .brrd rd k => "brrd " ++ regText rd ++ ", " ++ toString k

/-- R80: the pseudo-instructions. -/
inductive Pseudo where
  | fmov (rd ra : Reg)
  | fzero (rd : Reg)
  | fone (rd : Reg)
  | fsqr (rd ra : Reg)
  | fdbl (rd ra : Reg)
  /-- the root `ω_L^k` -/
  | froot (rd : Reg) (L k : Nat)
  deriving DecidableEq, Repr

/-- R80: the expansion of a pseudo-instruction, `none` where the assembler refuses it: `froot` requires `L` to be a power of
two, `2 <= L <= 2^K`, and `k < L/2`. -/
def expand (c : Config) (i : Pseudo) : Option Instr :=
  match i with
  | .fmov rd ra => some (.fpow rd ra 1)
  | .fzero rd => some (.fseti rd 0)
  | .fone rd => some (.fseti rd 1)
  | .fsqr rd ra => some (.fmul rd ra ra)
  | .fdbl rd ra => some (.fadd rd ra ra)
  | .froot rd L k =>
    if isPowerOfTwo L = true ∧ 2 ≤ L ∧ L ≤ c.size ∧ k < L / 2 then some (.rrd rd (L / 2 + k)) else none

end Sys2Proof.Machine
end

