-- ==== Sys2Proof/Machine/ClosedForm.lean ====
section
/-!
DEFINITION. What the transforms compute, in closed form (R160), and the cyclic convolution (R167). The machine does not use
these: it follows the algorithm of R161 to R164. They are the right sides of the claims about it.
-/

namespace Sys2Proof.Machine

/-- R160: `ω_n = g^((p-1)/n) mod p`. -/
def omega (c : Config) (n : Nat) : Nat :=
  c.g ^ ((c.p - 1) / n) % c.p

/-- R160: `FwdNTT_n(a)[k]`, for the `n` words `a`. -/
def fwdNtt (c : Config) (a : List Nat) (k : Nat) : Nat :=
  (∑ j ∈ Finset.range a.length, wordAt a j * omega c a.length ^ (j * k)) % c.p

/-- R160: `InvNTT_n(a)[k]`, where `ω_n^(-x)` means `finv(ω_n)^x` and `finv(y)` is `y^(p-2) mod p` (R105). -/
def invNtt (c : Config) (a : List Nat) (k : Nat) : Nat :=
  ((a.length % c.p) ^ (c.p - 2) % c.p *
    ∑ j ∈ Finset.range a.length, wordAt a j * (omega c a.length ^ (c.p - 2) % c.p) ^ (j * k)) % c.p

/-- R167: `c[k] = sum_{i+j ≡ k (mod n)} x[i] y[j]`, modulo `p`. -/
def cyclicConvolution (c : Config) (x y : List Nat) (k : Nat) : Nat :=
  (∑ i ∈ Finset.range x.length, ∑ j ∈ Finset.range x.length,
    if (i + j) % x.length = k then wordAt x i * wordAt y j else 0) % c.p

end Sys2Proof.Machine
end

