-- ==== Sys2Proof/Safety.lean ====
section
/-!
DEFINITION. The terms that claims use: the invariant of the block's states, what a command writes, and when a command has a
next state (R47).
-/

namespace Sys2Proof

/-- R22: the field register that a command writes when it retires. -/
def Instr.dest : Instr → Option Reg
  | .fadd rd _ _ | .fsub rd _ _ | .fmul rd _ _ | .fneg rd _ | .finv rd _ | .fdiv rd _ _ | .fpow rd _ _ | .fseti rd _
  | .fld rd _ _ | .rrd rd _ | .brrd rd _ => some rd
  | .nop | .fcmp _ _ | .fst _ _ _ | .ntt _ _ | .intt _ _ | .rbuild => none

/-- The buffer words that a command writes when it retires, as bank, first index and number of words (R165, R166, R181). -/
def Instr.stores : Instr → Option (Nat × Nat × Nat)
  | .fst _ bk i => some (bk, i, 1)
  | .ntt bk n | .intt bk n => some (bk, 0, n)
  | .nop | .fadd _ _ _ | .fsub _ _ _ | .fmul _ _ _ | .fneg _ _ | .finv _ _ | .fdiv _ _ _ | .fpow _ _ _ | .fseti _ _
  | .fcmp _ _ | .fld _ _ _ | .rbuild | .rrd _ _ | .brrd _ _ => none

/-- The buffer words that a command reads, as bank, first index and number of words (R47, R180, R165, R166). -/
def Instr.loads : Instr → Option (Nat × Nat × Nat)
  | .fld _ bk i => some (bk, i, 1)
  | .ntt bk n | .intt bk n => some (bk, 0, n)
  | .nop | .fadd _ _ _ | .fsub _ _ _ | .fmul _ _ _ | .fneg _ _ | .finv _ _ | .fdiv _ _ _ | .fpow _ _ _ | .fseti _ _
  | .fcmp _ _ | .fst _ _ _ | .rbuild | .rrd _ _ | .brrd _ _ => none

/-- R145: the commands that build the cache. -/
def Instr.usesCache : Instr → Bool
  | .ntt _ _ | .intt _ _ | .rbuild | .rrd _ _ | .brrd _ _ => true
  | .nop | .fadd _ _ _ | .fsub _ _ _ | .fmul _ _ _ | .fneg _ _ | .finv _ _ | .fdiv _ _ _ | .fpow _ _ _ | .fseti _ _
  | .fcmp _ _ | .fld _ _ _ | .fst _ _ _ => false

/-- R75, column "fields used": the opcode uses `rd`. -/
def Opcode.usesRd : Opcode → Bool
  | .fadd | .fsub | .fmul | .fneg | .finv | .fdiv | .fpow | .fseti | .fld | .rrd | .brrd => true
  | .nop | .fcmp | .fst | .ntt | .intt | .rbuild => false

/-- R75: the opcode uses `ra`. -/
def Opcode.usesRa : Opcode → Bool
  | .fadd | .fsub | .fmul | .fneg | .finv | .fdiv | .fpow | .fcmp | .fst => true
  | .nop | .fseti | .fld | .ntt | .intt | .rbuild | .rrd | .brrd => false

/-- R75: the opcode uses `rb`. -/
def Opcode.usesRb : Opcode → Bool
  | .fadd | .fsub | .fmul | .fdiv | .fcmp => true
  | .nop | .fneg | .finv | .fpow | .fseti | .fld | .fst | .ntt | .intt | .rbuild | .rrd | .brrd => false

/-- R75: the opcode uses `bk`. -/
def Opcode.usesBk : Opcode → Bool
  | .fld | .fst | .ntt | .intt => true
  | .nop | .fadd | .fsub | .fmul | .fneg | .finv | .fdiv | .fpow | .fseti | .fcmp | .rbuild | .rrd | .brrd => false

/-- R75: the opcode uses `imm`. -/
def Opcode.usesImm : Opcode → Bool
  | .fld | .fst | .ntt | .intt | .rrd | .brrd => true
  | .nop | .fadd | .fsub | .fmul | .fneg | .finv | .fdiv | .fpow | .fseti | .fcmp | .rbuild => false

/-- R74: a word of this opcode in which a reserved bit (11, 15, 19, 31:24) or a field that the opcode does not use is not 0. -/
def FieldsIllegal (op : Opcode) (w : Word64) : Prop :=
  w.getLsbD 11 = true ∨ w.getLsbD 15 = true ∨ w.getLsbD 19 = true ∨ w.extractLsb' 24 8 ≠ 0 ∨
  (op.usesRd = false ∧ rdField w ≠ 0) ∨ (op.usesRa = false ∧ raField w ≠ 0) ∨
  (op.usesRb = false ∧ rbField w ≠ 0) ∨ (op.usesBk = false ∧ bkField w ≠ 0) ∨
  (op.usesImm = false ∧ immField w ≠ 0)

end Sys2Proof

namespace Sys2Proof.Machine

/-- R22: every field register holds a residue. -/
def State.RegsCanonical (s : State) : Prop :=
  ∀ i : Reg, s.reg i < s.cfg.p

/-- R26, R51: the buffer is in canonical form, every written word is a word of a bank, and it holds a residue. -/
structure State.BufferOk (s : State) : Prop where
  sorted : s.buf.wf
  canonical : ∀ k v, s.buf.read k = some v → v < s.cfg.p
  inBank : ∀ k v, s.buf.read k = some v → ∃ b i, b < s.cfg.nbank ∧ i < s.cfg.size ∧ k = wordKey b i

/-- R29: CVALID is 1 exactly when ROOT and BITREV hold their built contents. -/
def State.CacheOk (s : State) : Prop :=
  s.cvalid = true ↔ s.root = builtRoot s.cfg ∧ s.bitrev = builtBitrev s.cfg

/-- R39: a held first word is one of a two-word command, and an accepted command has a payload exactly when it has two
words. -/
def ControlOk : ControlState → Prop
  | .idle => True
  | .pend2 w0 => needsPayload w0 = true
  | .busy w0 w1 => w1.isSome = needsPayload w0
  | .halted => True

/-- R36, R206: ERRCODE is non-zero exactly in the Halted state, its CODE is 0, 1, 2 or 4 (never 3), and bits 31:24 read 0. -/
structure State.ErrorOk (s : State) : Prop where
  halted : s.errcode ≠ 0 ↔ s.cs = .halted
  code : s.errcode.extractLsb' 0 8 ∈ ([0, 1, 2, 4] : List (BitVec 8))
  high : s.errcode.extractLsb' 24 8 = 0

/-- R118: EQ and LT never hold together. -/
def State.FlagsOk (s : State) : Prop :=
  ¬ (s.eq = true ∧ s.lt = true)

/-- What holds of the block in every state that a run from reset reaches. -/
structure State.Inv (s : State) : Prop where
  regs : s.RegsCanonical
  buffer : s.BufferOk
  cache : s.CacheOk
  control : ControlOk s.cs
  error : s.ErrorOk
  flags : s.FlagsOk

/-- R47, R233: a safe command reads no unwritten word: every word it reads has been written. -/
def State.OperandsWritten (s : State) (i : Instr) : Prop :=
  match i.loads with
  | none => True
  | some (b, first, n) => ∀ j < n, (s.bufRead b (first + j)).isSome = true

/-! ### Turns -/

/-- A 32-bit host read of the register at an offset (R53). -/
def readTurn (offset : Fin 256) : Turn :=
  .host { op := .read, offset := offset, bytes := 4 }

/-- A 32-bit host write of the register at an offset (R53). -/
def writeTurn (offset : Fin 256) (v : Word32) : Turn :=
  .host { op := .write v, offset := offset, bytes := 4 }

/-- R39, R234: the two writes that submit a word: CMD_LO, then CMD_HI. -/
def submitTurns (w : Word64) : List Turn :=
  [writeTurn 0x20 (w.extractLsb' 0 32), writeTurn 0x24 (w.extractLsb' 32 32)]

/-- R234: the writes that submit a command, word by word. -/
def commandTurns (i : Instr) : List Turn :=
  submitTurns i.firstWord ++ (i.payload.map submitTurns).getD []

/-- The state when the next turn is `t` and the turns to come after it are those of `s`. -/
def State.before (s : State) (t : Turn) : State :=
  { s with turns := t :: s.turns }

/-- The next turn is the engine's: it is first in the schedule, or the schedule is empty. -/
def State.EngineNext (s : State) : Prop :=
  s.turns = [] ∨ s.turns.head? = some .engine

/-- The state once the next turn has been taken from the schedule. -/
def State.nextTurns (s : State) : State :=
  { s with turns := s.turns.tail }

end Sys2Proof.Machine
end

