-- ==== Sys2Proof/Certificates/Slice0/Obligations.lean ====
section
/-!
DEFINITION. The statements about the model, each a numbered rule of the spec or derived from some.

Where a statement is an equation `exec i s = .next { s with ... }`, the record on its right is also the frame: every field
that is not named there is unchanged, the buffer, the tables, the flags and the host's registers among them.

What is the model's and not the spec's in how a statement is written: a host access is a turn of the schedule and the value a
read returns is `busRead` (log 5); an engine turn is the next turn, or the schedule is empty (log 6); the draw of the register
at an offset is `Config.draw s.epoch` at it, where the epoch grows with every host write, engine step and change of the reset
input (log 9).
-/

open Sys2Proof Sys2Proof.Machine

/-! ## Encoding -/

/-- R71, R73, R74, R75: decoding the words of a command that fits its fields gives the command back. -/
def Obligations.DecodeOfEncode : Prop :=
  ∀ i : Instr, i.WellFormed → decode (encode i).1 (encode i).2 = .ok i

/-- R70, R74, R77: strict decoding. A command of the right number of words that decodes is the encoding of what it decodes to,
so no two commands have one meaning. -/
def Obligations.EncodeOfDecode : Prop :=
  ∀ (w0 : Word64) (w1 : Option Word64) (i : Instr), w1.isSome = needsPayload w0 → decode w0 w1 = .ok i →
    i.WellFormed ∧ encode i = (w0, w1)

/-- R81, and the encodings of 95_test_vectors.md: words written out from the encoding, one for each family. -/
def Obligations.SampleWordsDecode : Prop :=
  decode 0x0000000000000000 none = .ok .nop ∧
  decode 0x0000000000032101 none = .ok (.fadd 1 2 3) ∧
  decode 0x0000000700100510 none = .ok (.fld 5 1 7) ∧
  decode 0x0000000800000020 none = .ok (.ntt 0 8) ∧
  decode 0x0000000000000108 (some 0xFFFFFFFFFFFFFFFF) = .ok (.fseti 1 (-1)) ∧
  decode 0x0000000300000231 none = .ok (.rrd 2 3)

/-- R77: a first word whose opcode is none of R75 (the 239 values 0x0A to 0x0F, 0x12 to 0x1F, 0x22 to 0x2F and 0x33 to 0xFF)
raises IllegalCommand INFO 1 when it runs, whatever its other bits are, and does nothing else. -/
def Obligations.IllegalOpcodeRaises : Prop :=
  ∀ (s : State) (w0 : Word64) (w1 : Option Word64), s.inReset = false → s.EngineNext → s.cs = .busy w0 w1 →
    ((0x0A ≤ (w0.extractLsb' 0 8).toNat ∧ (w0.extractLsb' 0 8).toNat ≤ 0x0F) ∨
      (0x12 ≤ (w0.extractLsb' 0 8).toNat ∧ (w0.extractLsb' 0 8).toNat ≤ 0x1F) ∨
      (0x22 ≤ (w0.extractLsb' 0 8).toNat ∧ (w0.extractLsb' 0 8).toNat ≤ 0x2F) ∨
      0x33 ≤ (w0.extractLsb' 0 8).toNat) →
    step s = .next { s with
      errcode := 0#8 ++ w0.extractLsb' 0 8 ++ 1#8 ++ 4#8, cs := .halted, turns := s.turns.tail, epoch := s.epoch + 1 }

/-- R74, R77: a word of a legal opcode with a non-zero reserved bit or unused field raises IllegalCommand INFO 2 when it runs,
with or without a payload, and does nothing else. -/
def Obligations.IllegalFieldRaises : Prop :=
  ∀ (s : State) (op : Opcode) (w0 : Word64) (w1 : Option Word64), s.inReset = false → s.EngineNext →
    s.cs = .busy w0 w1 → w0.extractLsb' 0 8 = op.code → FieldsIllegal op w0 →
    step s = .next { s with
      errcode := 0#8 ++ op.code ++ 2#8 ++ 4#8, cs := .halted, turns := s.turns.tail, epoch := s.epoch + 1 }

/-- R44, R78: when the engine's turn is next and it is Busy with a command that decodes to `i`, the step is `exec i` on the state
with that turn taken. R44, R204, R231: in every other control state (Idle, Pend2, Halted) the engine executes nothing: its turn,
and the empty schedule, leave everything as it is. -/
def Obligations.StepRunsDecodedCommand : Prop :=
  (∀ (s : State) (w0 : Word64) (w1 : Option Word64) (i : Instr), s.inReset = false → s.EngineNext →
    s.cs = .busy w0 w1 → decode w0 w1 = .ok i →
    step s = exec i { s with turns := s.turns.tail, epoch := s.epoch + 1 }) ∧
  (∀ s : State, s.inReset = false → s.EngineNext → (∀ w0 w1, s.cs ≠ .busy w0 w1) →
    step s = .next { s with turns := s.turns.tail })

/-- R39, R234: the command protocol. From Idle, the CMD_LO and CMD_HI writes of a command's words in order, and then the
engine's turn, run exactly that command. -/
def Obligations.ProtocolRunsCommand : Prop :=
  ∀ (s : State) (i : Instr) (rest : List Turn), i.WellFormed → s.inReset = false → s.cs = .idle →
    s.turns = commandTurns i ++ .engine :: rest →
    Host.Core.run core ((commandTurns i).length + 1) s =
      exec i { s with
        cs := .busy i.firstWord i.payload,
        cmdLo := (i.payload.getD i.firstWord).extractLsb' 0 32,
        turns := rest,
        epoch := s.epoch + (commandTurns i).length + 1 }

/-! ## The field unit -/

/-- R119: NOP advances CMDCNT and does nothing else. -/
def Obligations.NopOnlyRetires : Prop :=
  ∀ s : State, exec .nop s = .next { s with cmdcnt := s.cmdcnt + 1, cs := .idle }

/-- R101, R110: FADD. -/
def Obligations.FaddAdds : Prop :=
  ∀ (s : State) (rd ra rb : Reg), ∃ v : Nat,
    exec (.fadd rd ra rb) s = .next { s with f := s.f.set rd v, cmdcnt := s.cmdcnt + 1, cs := .idle } ∧
    (v : Int) = ((s.reg ra : Int) + s.reg rb) % s.cfg.p ∧ v < s.cfg.p ∧
    (s.reg ra < s.cfg.p → s.reg rb < s.cfg.p →
      v = if s.reg ra + s.reg rb < s.cfg.p then s.reg ra + s.reg rb else s.reg ra + s.reg rb - s.cfg.p)

/-- R102, R111: FSUB. -/
def Obligations.FsubSubtracts : Prop :=
  ∀ (s : State) (rd ra rb : Reg), ∃ v : Nat,
    exec (.fsub rd ra rb) s = .next { s with f := s.f.set rd v, cmdcnt := s.cmdcnt + 1, cs := .idle } ∧
    (v : Int) = ((s.reg ra : Int) - s.reg rb) % s.cfg.p ∧ v < s.cfg.p ∧
    (s.reg ra < s.cfg.p → s.reg rb < s.cfg.p →
      (v : Int) = if s.reg rb ≤ s.reg ra then (s.reg ra : Int) - s.reg rb else (s.reg ra : Int) - s.reg rb + s.cfg.p)

/-- R103, R112: FMUL. -/
def Obligations.FmulMultiplies : Prop :=
  ∀ (s : State) (rd ra rb : Reg), ∃ v : Nat,
    exec (.fmul rd ra rb) s = .next { s with f := s.f.set rd v, cmdcnt := s.cmdcnt + 1, cs := .idle } ∧
    v = s.reg ra * s.reg rb % s.cfg.p ∧ v < s.cfg.p

/-- R104, R113: FNEG; the negative of 0 is 0, not `p`. -/
def Obligations.FnegNegates : Prop :=
  ∀ (s : State) (rd ra : Reg), ∃ v : Nat,
    exec (.fneg rd ra) s = .next { s with f := s.f.set rd v, cmdcnt := s.cmdcnt + 1, cs := .idle } ∧
    (v : Int) = ((s.cfg.p : Int) - s.reg ra) % s.cfg.p ∧ v < s.cfg.p ∧
    (s.reg ra < s.cfg.p → v = if s.reg ra = 0 then 0 else s.cfg.p - s.reg ra)

/-- R105, R114: FINV of a non-zero element is its multiplicative inverse, `F[ra]^(p-2) mod p`. -/
def Obligations.FinvInverts : Prop :=
  ∀ (s : State) (rd ra : Reg), s.reg ra < s.cfg.p → s.reg ra ≠ 0 → ∃ v : Nat,
    exec (.finv rd ra) s = .next { s with f := s.f.set rd v, cmdcnt := s.cmdcnt + 1, cs := .idle } ∧
    v = s.reg ra ^ (s.cfg.p - 2) % s.cfg.p ∧ v < s.cfg.p ∧ s.reg ra * v % s.cfg.p = 1

/-- R105, R115: FDIV by a non-zero element is multiplication by its inverse: the quotient times the divisor is the dividend. -/
def Obligations.FdivDivides : Prop :=
  ∀ (s : State) (rd ra rb : Reg), s.reg ra < s.cfg.p → s.reg rb < s.cfg.p → s.reg rb ≠ 0 → ∃ v : Nat,
    exec (.fdiv rd ra rb) s = .next { s with f := s.f.set rd v, cmdcnt := s.cmdcnt + 1, cs := .idle } ∧
    v = s.reg ra * (s.reg rb ^ (s.cfg.p - 2) % s.cfg.p) % s.cfg.p ∧ v < s.cfg.p ∧ v * s.reg rb % s.cfg.p = s.reg ra

/-- R114, R115, R201, R203: FINV of 0 raises DivisionByZero INFO 1, FDIV by 0 raises DivisionByZero INFO 2 (for 0 / 0 too),
and neither does anything else. -/
def Obligations.ZeroDivisorsRaise : Prop :=
  (∀ (s : State) (rd ra : Reg), s.reg ra = 0 →
    exec (.finv rd ra) s = .next { s with errcode := 0x00050101, cs := .halted }) ∧
  (∀ (s : State) (rd ra rb : Reg), s.reg rb = 0 →
    exec (.fdiv rd ra rb) s = .next { s with errcode := 0x00060201, cs := .halted })

/-- R106, R116: FPOW computes the power, for every exponent, and never raises DivisionByZero. `F[ra]^0` is 1 also for
`F[ra] = 0`. -/
def Obligations.FpowRaisesToPower : Prop :=
  ∀ (s : State) (rd ra : Reg) (e : Nat), ∃ v : Nat,
    exec (.fpow rd ra e) s = .next { s with f := s.f.set rd v, cmdcnt := s.cmdcnt + 1, cs := .idle } ∧
    v = s.reg ra ^ e % s.cfg.p ∧ v < s.cfg.p ∧ (e = 0 → v = 1) ∧ (s.reg ra = 0 → e ≠ 0 → v = 0)

/-- R100, R117: FSETI reduces any integer, negative ones too. -/
def Obligations.FsetiReduces : Prop :=
  ∀ (s : State) (rd : Reg) (x : Int), ∃ v : Nat,
    exec (.fseti rd x) s = .next { s with f := s.f.set rd v, cmdcnt := s.cmdcnt + 1, cs := .idle } ∧
    (v : Int) = x % s.cfg.p ∧ v < s.cfg.p

/-- R107, R118: FCMP writes EQ and LT from the integer values, never both 1, and writes no register. -/
def Obligations.FcmpCompares : Prop :=
  ∀ (s : State) (ra rb : Reg), ∃ e l : Bool,
    exec (.fcmp ra rb) s = .next { s with eq := e, lt := l, cmdcnt := s.cmdcnt + 1, cs := .idle } ∧
    (e = true ↔ s.reg ra = s.reg rb) ∧ (l = true ↔ s.reg ra < s.reg rb) ∧ ¬ (e = true ∧ l = true)

/-- R80: the pseudo-instructions. `fmov` copies a register, `fzero` and `fone` write 0 and 1, `fsqr` and `fdbl` the square and
the double; `froot` expands to a read of table index `L/2 + k`, and only for `L` a power of two from 2 to `2^K` and `k < L/2`. -/
def Obligations.PseudoInstructionsExpand : Prop :=
  (∀ (s : State) (rd ra : Reg), s.reg ra < s.cfg.p →
    (∃ i, expand s.cfg (.fmov rd ra) = some i ∧
      exec i s = .next { s with f := s.f.set rd (s.reg ra), cmdcnt := s.cmdcnt + 1, cs := .idle }) ∧
    (∃ i, expand s.cfg (.fsqr rd ra) = some i ∧
      exec i s = .next { s with f := s.f.set rd (s.reg ra ^ 2 % s.cfg.p), cmdcnt := s.cmdcnt + 1, cs := .idle }) ∧
    (∃ i, expand s.cfg (.fdbl rd ra) = some i ∧
      exec i s = .next { s with f := s.f.set rd (2 * s.reg ra % s.cfg.p), cmdcnt := s.cmdcnt + 1, cs := .idle })) ∧
  (∀ (s : State) (rd : Reg),
    (∃ i, expand s.cfg (.fzero rd) = some i ∧
      exec i s = .next { s with f := s.f.set rd 0, cmdcnt := s.cmdcnt + 1, cs := .idle }) ∧
    (∃ i, expand s.cfg (.fone rd) = some i ∧
      exec i s = .next { s with f := s.f.set rd 1, cmdcnt := s.cmdcnt + 1, cs := .idle })) ∧
  (∀ (c : Config) (rd : Reg) (l k : Nat), 1 ≤ l → l ≤ c.K → k < 2 ^ l / 2 →
    expand c (.froot rd (2 ^ l) k) = some (.rrd rd (2 ^ l / 2 + k))) ∧
  (∀ (c : Config) (rd : Reg) (L k : Nat), (∀ l, L ≠ 2 ^ l) ∨ L < 2 ∨ 2 ^ c.K < L ∨ L / 2 ≤ k →
    expand c (.froot rd L k) = none)

/-! ## Buffer transfer -/

/-- R180: FLD loads a written word that exists. -/
def Obligations.FldLoads : Prop :=
  ∀ (s : State) (rd : Reg) (bk : Bank) (i : Nat) (v : Nat), (bk : Nat) < s.cfg.nbank → i < 2 ^ s.cfg.K →
    s.bufRead bk i = some v →
    exec (.fld rd bk i) s = .next { s with f := s.f.set rd v, cmdcnt := s.cmdcnt + 1, cs := .idle }

/-- R181: FST stores the register in the word, which is then written; every other word of the buffer, in this bank and in the
others (R26, R50), reads as before, and the buffer keeps its canonical form. -/
def Obligations.FstStores : Prop :=
  ∀ (s : State) (ra : Reg) (bk : Bank) (i : Nat), (bk : Nat) < s.cfg.nbank → i < 2 ^ s.cfg.K → ∃ m : Memory,
    exec (.fst ra bk i) s = .next { s with buf := m, cmdcnt := s.cmdcnt + 1, cs := .idle } ∧
    { s with buf := m }.bufRead bk i = some (s.reg ra) ∧
    (∀ b j : Nat, j < 2 ^ s.cfg.K → ¬ (b = (bk : Nat) ∧ j = i) → { s with buf := m }.bufRead b j = s.bufRead b j) ∧
    (∀ key, key ≠ wordKey bk i → m.read key = s.buf.read key) ∧ (s.buf.wf → m.wf)

/-- R180, R181, R205: FLD and FST report a bank that does not exist (INFO 4) before an index that does not (INFO 3), and do
nothing else. -/
def Obligations.TransferOperandErrors : Prop :=
  ∀ (s : State) (r : Reg) (bk : Bank) (i : Nat),
    (s.cfg.nbank ≤ (bk : Nat) →
      exec (.fld r bk i) s = .next { s with errcode := 0x00100402, cs := .halted } ∧
      exec (.fst r bk i) s = .next { s with errcode := 0x00110402, cs := .halted }) ∧
    ((bk : Nat) < s.cfg.nbank → 2 ^ s.cfg.K ≤ i →
      exec (.fld r bk i) s = .next { s with errcode := 0x00100302, cs := .halted } ∧
      exec (.fst r bk i) s = .next { s with errcode := 0x00110302, cs := .halted })

/-- R47, R168: a command that reads an unwritten word of the buffer is the model fault `UnwrittenRead`. -/
def Obligations.UnwrittenReadsFault : Prop :=
  (∀ (s : State) (rd : Reg) (bk : Bank) (i : Nat), (bk : Nat) < s.cfg.nbank → i < 2 ^ s.cfg.K →
    s.bufRead bk i = none → exec (.fld rd bk i) s = .fault .unwrittenRead) ∧
  (∀ (s : State) (bk : Bank) (m j : Nat), (bk : Nat) < s.cfg.nbank → m ≤ s.cfg.K → j < 2 ^ m →
    s.bufRead bk j = none →
    exec (.ntt bk (2 ^ m)) s = .fault .unwrittenRead ∧ exec (.intt bk (2 ^ m)) s = .fault .unwrittenRead)

/-- R47, R203: a command all of whose operand words have been written always has a next state. -/
def Obligations.WrittenOperandsNeverStop : Prop :=
  ∀ (s : State) (i : Instr), s.OperandsWritten i → ∃ t, exec i s = .next t

/-! ## The root-of-unity cache -/

/-- R140, R141: the contents of the built root table. For every length `L = 2^(l+1)` up to `2^K`, with
`ω_L = g^((p-1)/L) mod p`: its row starts with 1, each entry is the one before times `ω_L`, and `ω_L` is a principal `L`-th
root of unity. The table has `2^K - 1` entries. -/
def Obligations.RootTableContents : Prop :=
  ∀ c : Config, (builtRoot c).length = 2 ^ c.K - 1 ∧
    ∀ l < c.K,
      rootAt (builtRoot c) (2 ^ l) = 1 ∧
      (∀ k, 1 ≤ k → k < 2 ^ l → rootAt (builtRoot c) (2 ^ l + k) =
        rootAt (builtRoot c) (2 ^ l + k - 1) * (c.g ^ ((c.p - 1) / 2 ^ (l + 1)) % c.p) % c.p) ∧
      (c.g ^ ((c.p - 1) / 2 ^ (l + 1)) % c.p) ^ 2 ^ (l + 1) % c.p = 1 ∧
      (c.g ^ ((c.p - 1) / 2 ^ (l + 1)) % c.p) ^ 2 ^ l % c.p = c.p - 1

/-- R142, R143: the contents of the built bit-reversal table: bit `j` of `BITREV[i]` is bit `K - 1 - j` of `i`; and scaled to
`m` places, bit `j` of `BITREV[i] >> (K - m)` is bit `m - 1 - j` of `i`, for `i < 2^m`. -/
def Obligations.BitReversalContents : Prop :=
  ∀ c : Config, (builtBitrev c).length = 2 ^ c.K ∧
    (∀ i < 2 ^ c.K, bitrevAt (builtBitrev c) i < 2 ^ c.K ∧
      ∀ j < c.K, (bitrevAt (builtBitrev c) i).testBit j = i.testBit (c.K - 1 - j)) ∧
    (∀ m ≤ c.K, ∀ i < 2 ^ m, bitrevAt (builtBitrev c) i >>> (c.K - m) < 2 ^ m ∧
      ∀ j < m, (bitrevAt (builtBitrev c) i >>> (c.K - m)).testBit j = i.testBit (m - 1 - j))

/-- R145, R146: RBUILD builds both tables and sets CVALID if it is 0, and otherwise only retires. -/
def Obligations.RbuildBuildsOnce : Prop :=
  (∀ s : State, s.cvalid = false →
    exec .rbuild s = .next { s with
      root := builtRoot s.cfg, bitrev := builtBitrev s.cfg, cvalid := true, cmdcnt := s.cmdcnt + 1, cs := .idle }) ∧
  (∀ s : State, s.cvalid = true → exec .rbuild s = .next { s with cmdcnt := s.cmdcnt + 1, cs := .idle })

/-- R140, R141, R147: RRD of the index `a = L/2 + k`, with `L = 2^(l+1)` and `k < L/2`, reads `ω_L^k mod p`, and leaves the cache
built. -/
def Obligations.RrdReadsRoot : Prop :=
  ∀ (s : State) (rd : Reg) (l k : Nat), s.CacheOk → l < s.cfg.K → k < 2 ^ l →
    exec (.rrd rd (2 ^ l + k)) s = .next { s with
      f := s.f.set rd ((s.cfg.g ^ ((s.cfg.p - 1) / 2 ^ (l + 1)) % s.cfg.p) ^ k % s.cfg.p),
      root := builtRoot s.cfg, bitrev := builtBitrev s.cfg, cvalid := true, cmdcnt := s.cmdcnt + 1, cs := .idle }

/-- R142, R148: BRRD reads `rev_K(i)`, a number below `2^K` (so a residue as it stands), and leaves the cache built. -/
def Obligations.BrrdReadsReversal : Prop :=
  ∀ (s : State) (rd : Reg) (i : Nat), s.CacheOk → i < 2 ^ s.cfg.K → ∃ v : Nat,
    exec (.brrd rd i) s = .next { s with
      f := s.f.set rd v,
      root := builtRoot s.cfg, bitrev := builtBitrev s.cfg, cvalid := true, cmdcnt := s.cmdcnt + 1, cs := .idle } ∧
    v < 2 ^ s.cfg.K ∧ v < s.cfg.p ∧ ∀ j < s.cfg.K, v.testBit j = i.testBit (s.cfg.K - 1 - j)

/-- R145, R147, R148, R201: an index that names no entry raises InvalidPrecondition INFO 5; the cache is then not built, and
nothing else changes. -/
def Obligations.TableIndexErrors : Prop :=
  (∀ (s : State) (rd : Reg) (a : Nat), a = 0 ∨ 2 ^ s.cfg.K ≤ a →
    exec (.rrd rd a) s = .next { s with errcode := 0x00310502, cs := .halted }) ∧
  (∀ (s : State) (rd : Reg) (i : Nat), 2 ^ s.cfg.K ≤ i →
    exec (.brrd rd i) s = .next { s with errcode := 0x00320502, cs := .halted })

/-! ## The transforms -/

/-- R160, R165, R168: NTT of `n = 2^m` written words computes the forward transform in closed form, in place: word `k` becomes
`FwdNTT_n(a)[k]`, every other word of the buffer, in this bank and in the others, reads as before, the cache is built, and
nothing else changes. -/
def Obligations.NttComputesForwardTransform : Prop :=
  ∀ (s : State) (bk : Bank) (m : Nat) (a : List Nat), s.CacheOk → (bk : Nat) < s.cfg.nbank → m ≤ s.cfg.K →
    a.length = 2 ^ m → (∀ x ∈ a, x < s.cfg.p) → (∀ j < 2 ^ m, s.bufRead bk j = a[j]?) →
    ∃ b : Memory,
      exec (.ntt bk (2 ^ m)) s = .next { s with
        buf := b, root := builtRoot s.cfg, bitrev := builtBitrev s.cfg, cvalid := true,
        cmdcnt := s.cmdcnt + 1, cs := .idle } ∧
      (∀ k < 2 ^ m, { s with buf := b }.bufRead bk k = some (fwdNtt s.cfg a k)) ∧
      (∀ c j : Nat, j < 2 ^ s.cfg.K → ¬ (c = (bk : Nat) ∧ j < 2 ^ m) → { s with buf := b }.bufRead c j = s.bufRead c j) ∧
      (∀ key, (∀ k < 2 ^ m, key ≠ wordKey bk k) → b.read key = s.buf.read key) ∧ (s.buf.wf → b.wf)

/-- R160, R166, R168: INTT computes the inverse transform in closed form, in place: every other word of the buffer, in
this bank and in the others, reads as before, and nothing else changes. -/
def Obligations.InttComputesInverseTransform : Prop :=
  ∀ (s : State) (bk : Bank) (m : Nat) (a : List Nat), s.CacheOk → (bk : Nat) < s.cfg.nbank → m ≤ s.cfg.K →
    a.length = 2 ^ m → (∀ x ∈ a, x < s.cfg.p) → (∀ j < 2 ^ m, s.bufRead bk j = a[j]?) →
    ∃ b : Memory,
      exec (.intt bk (2 ^ m)) s = .next { s with
        buf := b, root := builtRoot s.cfg, bitrev := builtBitrev s.cfg, cvalid := true,
        cmdcnt := s.cmdcnt + 1, cs := .idle } ∧
      (∀ k < 2 ^ m, { s with buf := b }.bufRead bk k = some (invNtt s.cfg a k)) ∧
      (∀ c j : Nat, j < 2 ^ s.cfg.K → ¬ (c = (bk : Nat) ∧ j < 2 ^ m) → { s with buf := b }.bufRead c j = s.bufRead c j) ∧
      (∀ key, (∀ k < 2 ^ m, key ≠ wordKey bk k) → b.read key = s.buf.read key) ∧ (s.buf.wf → b.wf)

/-- R167, round trip: INTT after NTT on the same bank and size restores the words, and so does NTT after INTT; then every word
of the buffer reads as at the start. -/
def Obligations.TransformsRoundTrip : Prop :=
  ∀ (s : State) (bk : Bank) (m : Nat), s.CacheOk → (bk : Nat) < s.cfg.nbank → m ≤ s.cfg.K →
    (∀ j < 2 ^ m, ∃ v, s.bufRead bk j = some v ∧ v < s.cfg.p) →
    (∃ t u, exec (.ntt bk (2 ^ m)) s = .next t ∧ exec (.intt bk (2 ^ m)) t = .next u ∧
      ∀ key, u.buf.read key = s.buf.read key) ∧
    (∃ t u, exec (.intt bk (2 ^ m)) s = .next t ∧ exec (.ntt bk (2 ^ m)) t = .next u ∧
      ∀ key, u.buf.read key = s.buf.read key)

/-- R167, convolution: the inverse transform of the pointwise product of two forward transforms is the cyclic convolution of
the operands. -/
def Obligations.PointwiseProductConvolves : Prop :=
  ∀ (c : Config) (m : Nat) (x y : List Nat), m ≤ c.K → x.length = 2 ^ m → y.length = 2 ^ m →
    (∀ v ∈ x, v < c.p) → (∀ v ∈ y, v < c.p) →
    let forward := forwardSteps c.p c.K (builtRoot c) (builtBitrev c)
    let product := List.zipWith (fmul c.p) (forward x) (forward y)
    ∀ k < 2 ^ m,
      (inverseSteps c.p c.K (builtRoot c) (builtBitrev c) product)[k]? = some (cyclicConvolution c x y k)

/-- R167, linearity: the forward transform of an elementwise sum is the elementwise sum of the forward transforms. -/
def Obligations.ForwardTransformIsLinear : Prop :=
  ∀ (c : Config) (m : Nat) (x y : List Nat), m ≤ c.K → x.length = 2 ^ m → y.length = 2 ^ m →
    let forward := forwardSteps c.p c.K (builtRoot c) (builtBitrev c)
    forward (List.zipWith (fadd c.p) x y) = List.zipWith (fadd c.p) (forward x) (forward y)

/-- R165, R166, R205: NTT and INTT report a bank that does not exist (INFO 4), then a size that is no power of two (INFO 1, 0
among them), then a size above `2^K` (INFO 2); they build no cache then and change nothing else. -/
def Obligations.TransformOperandErrors : Prop :=
  ∀ (s : State) (bk : Bank) (n : Nat),
    (s.cfg.nbank ≤ (bk : Nat) →
      exec (.ntt bk n) s = .next { s with errcode := 0x00200402, cs := .halted } ∧
      exec (.intt bk n) s = .next { s with errcode := 0x00210402, cs := .halted }) ∧
    ((bk : Nat) < s.cfg.nbank → (∀ m, n ≠ 2 ^ m) →
      exec (.ntt bk n) s = .next { s with errcode := 0x00200102, cs := .halted } ∧
      exec (.intt bk n) s = .next { s with errcode := 0x00210102, cs := .halted }) ∧
    ((bk : Nat) < s.cfg.nbank → (∃ m, n = 2 ^ m) → 2 ^ s.cfg.K < n →
      exec (.ntt bk n) s = .next { s with errcode := 0x00200202, cs := .halted } ∧
      exec (.intt bk n) s = .next { s with errcode := 0x00210202, cs := .halted })

/-! ## What no command does -/

/-- R22, R25, R149, R182, R203: the frame of every command. It leaves alone: every field register but the one its `rd` names;
EQ and LT unless it is FCMP; every buffer word but those it stores to; the tables and CVALID unless it uses the cache, and
then too once CVALID is 1; and the configuration, DROP, cmd_lo, BUFADDR and all that is not the block's. -/
def Obligations.CommandFrame : Prop :=
  ∀ (i : Instr) (s t : State), exec i s = .next t →
    (∀ r : Reg, i.dest ≠ some r → t.reg r = s.reg r) ∧
    ((∀ ra rb, i ≠ .fcmp ra rb) → t.eq = s.eq ∧ t.lt = s.lt) ∧
    (∀ key, (∀ b first n, i.stores = some (b, first, n) → ∀ j < n, key ≠ wordKey b (first + j)) →
      t.buf.read key = s.buf.read key) ∧
    (i.usesCache = false ∨ s.cvalid = true → t.root = s.root ∧ t.bitrev = s.bitrev ∧ t.cvalid = s.cvalid) ∧
    t.cfg = s.cfg ∧ t.drop = s.drop ∧ t.cmdLo = s.cmdLo ∧ t.bufaddr = s.bufaddr ∧ t.inReset = s.inReset ∧
    t.turns = s.turns ∧ t.busRead = s.busRead ∧ t.epoch = s.epoch

/-- R23, R44, R203: a command either retires (CMDCNT advances, the engine is Idle, ERRCODE is as before) or raises an error,
and then writes ERRCODE and the Halted state and nothing else: ERRCODE holds its opcode in bits 23:16, a CODE of 1, 2 or 4 and
0 in bits 31:24. -/
def Obligations.CommandRetiresOrRaises : Prop :=
  ∀ (i : Instr) (s t : State), exec i s = .next t →
    (t.cs = .idle ∧ t.cmdcnt = s.cmdcnt + 1 ∧ t.errcode = s.errcode) ∨
    ∃ e : Word32, t = { s with errcode := e, cs := .halted } ∧
      e.extractLsb' 24 8 = 0 ∧ e.extractLsb' 16 8 = i.opcode.code ∧
      e.extractLsb' 0 8 ∈ ([1, 2, 4] : List (BitVec 8))

/-! ## The host window -/

/-- R34: STATUS shows the control state, DROP, CVALID, EQ and LT, and its other bits read 0. Reading it changes nothing, and a
write of it is ignored. After reset it is 0. -/
def Obligations.StatusShowsState : Prop :=
  (∀ c : Config, step ((State.resetFor c).before (readTurn 0x0C)) = .next { State.resetFor c with busRead := 0 }) ∧
  (∀ (s : State) (v : Word32), s.inReset = false →
    step (s.before (writeTurn 0x0C v)) = .next { s with epoch := s.epoch + 1 }) ∧
  ∀ s : State, s.inReset = false → ∃ v : Word32,
    step (s.before (readTurn 0x0C)) = .next { s with busRead := v } ∧
    (v.getLsbD 0 = true ↔ ∃ w0 w1, s.cs = .busy w0 w1) ∧
    (v.getLsbD 1 = true ↔ ∃ w0, s.cs = .pend2 w0) ∧
    (v.getLsbD 2 = true ↔ s.cs = .halted) ∧
    v.getLsbD 3 = s.drop ∧ v.getLsbD 4 = s.cvalid ∧ v.getLsbD 5 = s.eq ∧ v.getLsbD 6 = s.lt ∧
    ∀ j, 7 ≤ j → v.getLsbD j = false

/-- R31, R32, R33, R36, R37, R40: CFG, MOD and GEN read the configuration, ERRCODE, CMDCNT and BUFADDR read their values.
R35, R38, R39, R43: the write-only registers CTRL, CMD_LO and CMD_HI and the reserved offsets 0x1C, 0x30 to 0x3C and 0x60 to
0xFC read 0. Reading changes nothing in the block. -/
def Obligations.RegistersReadTheirValues : Prop :=
  ∀ s : State, s.inReset = false →
    (∃ v : Word32, step (s.before (readTurn 0x00)) = .next { s with busRead := v } ∧
      v.toNat = 7 * 2 ^ 9 + (s.cfg.nbank - 1) * 2 ^ 5 + s.cfg.K) ∧
    (∃ v : Word32, step (s.before (readTurn 0x04)) = .next { s with busRead := v } ∧ v.toNat = s.cfg.p) ∧
    (∃ v : Word32, step (s.before (readTurn 0x08)) = .next { s with busRead := v } ∧ v.toNat = s.cfg.g) ∧
    step (s.before (readTurn 0x14)) = .next { s with busRead := s.errcode } ∧
    step (s.before (readTurn 0x18)) = .next { s with busRead := s.cmdcnt } ∧
    step (s.before (readTurn 0x28)) = .next { s with busRead := s.bufaddr } ∧
    (∀ o : Fin 256, (o : Nat) % 4 = 0 →
      ((o : Nat) = 0x10 ∨ (o : Nat) = 0x20 ∨ (o : Nat) = 0x24 ∨ (o : Nat) = 0x1C ∨
        (0x30 ≤ (o : Nat) ∧ (o : Nat) ≤ 0x3C) ∨ 0x60 ≤ (o : Nat)) →
      step (s.before (readTurn o)) = .next { s with busRead := 0 })

/-- R42: FREGi reads `F[i]` while the engine is not Busy, and a free value while it is, whatever that value is. -/
def Obligations.FregReads : Prop :=
  ∀ (s : State) (i : Reg) (o : Fin 256), s.inReset = false → (o : Nat) = 0x40 + 4 * i →
    ((∀ w0 w1, s.cs ≠ .busy w0 w1) → s.reg i < s.cfg.p → ∃ v : Word32,
      step (s.before (readTurn o)) = .next { s with busRead := v } ∧ v.toNat = s.reg i) ∧
    ((∃ w0 w1, s.cs = .busy w0 w1) →
      step (s.before (readTurn o)) = .next { s with busRead := Config.draw s.epoch o })

/-- R47, R56, R57: a BUFDATA read. Not Busy, it returns the word that BUFADDR names if that is written, a free value if it is
not, and where BUFADDR names no word it returns 0 and sets DROP; Busy, it returns a free value. -/
def Obligations.BufdataReads : Prop :=
  ∀ (s : State) (b i : Nat), s.inReset = false → b = s.bufaddr.toNat / 2 ^ 28 → i = s.bufaddr.toNat % 2 ^ 28 →
    ((∀ w0 w1, s.cs ≠ .busy w0 w1) → b < s.cfg.nbank → i < 2 ^ s.cfg.K →
      (∀ x, s.bufRead b i = some x → x < s.cfg.p → ∃ v : Word32,
        step (s.before (readTurn 0x2C)) = .next { s with busRead := v } ∧ v.toNat = x) ∧
      (s.bufRead b i = none →
        step (s.before (readTurn 0x2C)) = .next { s with busRead := Config.draw s.epoch 0x2C })) ∧
    ((∀ w0 w1, s.cs ≠ .busy w0 w1) → s.cfg.nbank ≤ b ∨ 2 ^ s.cfg.K ≤ i →
      step (s.before (readTurn 0x2C)) = .next { s with busRead := 0, drop := true }) ∧
    ((∃ w0 w1, s.cs = .busy w0 w1) →
      step (s.before (readTurn 0x2C)) = .next { s with busRead := Config.draw s.epoch 0x2C })

/-- R56, R57: a BUFDATA write. Not Busy, it stores `v mod p` in the word that BUFADDR names and touches no other word of
the buffer, in this bank and in the others; where
BUFADDR names no word, and while Busy, it stores nothing and sets DROP. A read where BUFADDR names no word returns 0 and sets
DROP too. -/
def Obligations.BufdataWrites : Prop :=
  ∀ (s : State) (v : Word32) (b i : Nat), s.inReset = false → b = s.bufaddr.toNat / 2 ^ 28 →
    i = s.bufaddr.toNat % 2 ^ 28 →
    ((∀ w0 w1, s.cs ≠ .busy w0 w1) → b < s.cfg.nbank → i < 2 ^ s.cfg.K → ∃ m : Memory,
      step (s.before (writeTurn 0x2C v)) = .next { s with buf := m, epoch := s.epoch + 1 } ∧
      { s with buf := m }.bufRead b i = some (v.toNat % s.cfg.p) ∧
      (∀ c j, j < 2 ^ s.cfg.K → ¬ (c = b ∧ j = i) → { s with buf := m }.bufRead c j = s.bufRead c j) ∧
      ∀ key, key ≠ wordKey b i → m.read key = s.buf.read key) ∧
    ((∀ w0 w1, s.cs ≠ .busy w0 w1) → s.cfg.nbank ≤ b ∨ 2 ^ s.cfg.K ≤ i →
      step (s.before (readTurn 0x2C)) = .next { s with busRead := 0, drop := true } ∧
      step (s.before (writeTurn 0x2C v)) = .next { s with drop := true, epoch := s.epoch + 1 }) ∧
    ((∃ w0 w1, s.cs = .busy w0 w1) → step (s.before (writeTurn 0x2C v)) = .next { s with drop := true, epoch := s.epoch + 1 })

/-- R35, R211: a CTRL write, in any control state. CLRERR returns from an error, CLRDROP clears DROP, CANCEL drops a held first
word; each does nothing elsewhere, and bits 31:3 are ignored. A read of CTRL returns 0. -/
def Obligations.CtrlWrites : Prop :=
  ∀ (s : State) (v : Word32), s.inReset = false →
    step (s.before (readTurn 0x10)) = .next { s with busRead := 0 } ∧
    step (s.before (writeTurn 0x10 v)) = .next { s with
      errcode := if v.getLsbD 0 = true ∧ s.cs = .halted then 0 else s.errcode,
      drop := if v.getLsbD 1 = true then false else s.drop,
      cs := match s.cs with
        | .halted => if v.getLsbD 0 = true then .idle else .halted
        | .pend2 w0 => if v.getLsbD 2 = true then .idle else .pend2 w0
        | .busy w0 w1 => .busy w0 w1
        | .idle => .idle,
      epoch := s.epoch + 1 }

/-- R39: a CMD_HI write `h` presents `w = {h, cmd_lo}`. From Idle a first word of FSETI or FPOW is held and any other is
accepted; from Pend2 `w` is the payload, whatever its bits; while Busy or Halted it is discarded and DROP is set. A read of CMD_HI
returns 0. -/
def Obligations.CmdHiSubmits : Prop :=
  ∀ (s : State) (h : Word32), s.inReset = false →
    step (s.before (readTurn 0x24)) = .next { s with busRead := 0 } ∧
    (s.cs = .idle → s.cmdLo.extractLsb' 0 8 = 0x07 ∨ s.cmdLo.extractLsb' 0 8 = 0x08 →
      step (s.before (writeTurn 0x24 h)) = .next { s with cs := .pend2 (h ++ s.cmdLo), epoch := s.epoch + 1 }) ∧
    (s.cs = .idle → s.cmdLo.extractLsb' 0 8 ≠ 0x07 → s.cmdLo.extractLsb' 0 8 ≠ 0x08 →
      step (s.before (writeTurn 0x24 h)) = .next { s with cs := .busy (h ++ s.cmdLo) none, epoch := s.epoch + 1 }) ∧
    (∀ w0, s.cs = .pend2 w0 →
      step (s.before (writeTurn 0x24 h)) = .next { s with cs := .busy w0 (some (h ++ s.cmdLo)), epoch := s.epoch + 1 }) ∧
    ((∃ w0 w1, s.cs = .busy w0 w1) ∨ s.cs = .halted →
      step (s.before (writeTurn 0x24 h)) = .next { s with drop := true, epoch := s.epoch + 1 })

/-- R38, R40, R43: CMD_LO and BUFADDR writes store their value in any control state; writes to the read-only registers (CFG,
MOD, GEN, STATUS, ERRCODE, CMDCNT, FREG0 to FREG7) and to reserved offsets change nothing, DROP included. The reserved offsets
read 0. -/
def Obligations.LatchAndIgnoredWrites : Prop :=
  ∀ (s : State) (o : Fin 256) (v : Word32), s.inReset = false → (o : Nat) % 4 = 0 →
    ((o : Nat) = 0x20 → step (s.before (writeTurn o v)) = .next { s with cmdLo := v, epoch := s.epoch + 1 }) ∧
    ((o : Nat) = 0x28 → step (s.before (writeTurn o v)) = .next { s with bufaddr := v, epoch := s.epoch + 1 }) ∧
    ((o : Nat) ≤ 0x0C ∨ ((0x14 ≤ (o : Nat)) ∧ (o : Nat) ≤ 0x1C) ∨ 0x30 ≤ (o : Nat) →
      step (s.before (writeTurn o v)) = .next { s with epoch := s.epoch + 1 }) ∧
    ((o : Nat) = 0x1C ∨ (0x30 ≤ (o : Nat) ∧ (o : Nat) ≤ 0x3C) ∨ 0x60 ≤ (o : Nat) →
      step (s.before (readTurn o)) = .next { s with busRead := 0 })

/-- R53: a host access that is not 32 bits wide, or whose offset is not a multiple of 4, is refused in every state. -/
def Obligations.MalformedAccessRefused : Prop :=
  ∀ (s : State) (a : HostAccess), a.bytes ≠ 4 ∨ (a.offset : Nat) % 4 ≠ 0 →
    step (s.before (.host a)) = .refused .hostAccessForm

/-! ## The whole machine -/

/-- R46: the state after reset, for every configuration. -/
def Obligations.ResetValues : Prop :=
  ∀ c : Config, (State.resetFor c).cfg = c ∧ (∀ i : Reg, (State.resetFor c).reg i = 0) ∧ (State.resetFor c).cmdcnt = 0 ∧
    (State.resetFor c).eq = false ∧ (State.resetFor c).lt = false ∧ (State.resetFor c).cs = .idle ∧
    (State.resetFor c).drop = false ∧ (State.resetFor c).errcode = 0 ∧ (State.resetFor c).cvalid = false ∧
    (∀ b i, (State.resetFor c).bufRead b i = none) ∧ (State.resetFor c).cmdLo = 0 ∧ (State.resetFor c).bufaddr = 0

/-- R230: the reset input. Asserting it abandons a command in progress; while it is asserted the engine does nothing, a host
write has no effect and a host read returns a free value; deasserting it leaves the state of R46, with the configuration as it
was. -/
def Obligations.ResetInput : Prop :=
  ∀ s : State,
    (∃ t, step (s.before (.resetInput true)) = .next t ∧ t.inReset = true ∧ t.cs = .idle) ∧
    (s.inReset = true →
      step (s.before (.resetInput false)) = .next { State.resetFor s.cfg with
        turns := s.turns, busRead := s.busRead, epoch := s.epoch + 1 } ∧
      step (s.before .engine) = .next s ∧
      (∀ (o : Fin 256) (v : Word32), (o : Nat) % 4 = 0 →
        step (s.before (writeTurn o v)) = .next { s with epoch := s.epoch + 1 }) ∧
      (∀ o : Fin 256, (o : Nat) % 4 = 0 →
        step (s.before (readTurn o)) = .next { s with busRead := Config.draw s.epoch o }))

/-- R8, R206: a configuration that is not well formed is refused; of a well-formed one there is a block, in the state after
reset. -/
def Obligations.BuildRefusesUnsupported : Prop :=
  ∀ c : Params, (¬ c.WellFormed → build c = .refused .unsupportedModulus) ∧
    (c.WellFormed → ∃ cfg : Config, cfg.toParams = c ∧ build c = .next (State.resetFor cfg))

/-- The invariant holds after reset, for every configuration; `State.reset` is the reference block's (R9; log 2). -/
def Obligations.ResetMeetsInvariant : Prop :=
  (∀ c : Config, (State.resetFor c).Inv) ∧ State.reset = State.resetFor Config.reference

/-- R22, R26, R29, R36, R39, R118, R206: every step keeps the invariant: field registers and written words hold residues, the
buffer keeps its canonical form and holds only words that exist, CVALID is 1 exactly when the tables hold their built contents,
a held or accepted command has the words its opcode asks for, ERRCODE is non-zero exactly in the Halted state and never has CODE
3, and EQ and LT are never both 1. -/
def Obligations.StepKeepsInvariant : Prop :=
  ∀ s t : State, s.Inv → step s = .next t → t.Inv

/-- R7: no step changes the configuration. -/
def Obligations.ConfigurationIsFixed : Prop :=
  ∀ s t : State, step s = .next t → t.cfg = s.cfg

/-- R204, R212, R237: the Halted state, and ERRCODE with it, is left only by a CTRL write with CLRERR set or by reset. -/
def Obligations.HaltedUntilCleared : Prop :=
  ∀ s t : State, s.cs = .halted → step s = .next t →
    (t.cs = .halted ∧ t.errcode = s.errcode) ∨
    (∃ v : Word32, s.turns.head? = some (writeTurn 0x10 v) ∧ v.getLsbD 0 = true) ∨
    (∃ b, s.turns.head? = some (.resetInput b))

/-- R39, R44, R54: while the engine is Busy no host access changes the accepted command, the registers, the buffer or CMDCNT;
only the engine's own turn, or reset, ends the busy state. -/
def Obligations.BusyUntilExecuted : Prop :=
  ∀ (s t : State) (w0 : Word64) (w1 : Option Word64) (a : HostAccess), s.cs = .busy w0 w1 →
    step (s.before (.host a)) = .next t →
    t.cs = .busy w0 w1 ∧ t.f = s.f ∧ t.buf = s.buf ∧ t.cmdcnt = s.cmdcnt ∧ t.errcode = s.errcode ∧
      t.eq = s.eq ∧ t.lt = s.lt ∧ t.cvalid = s.cvalid

/-- R45: DROP is set only by a CMD_HI write while Busy or Halted, a BUFDATA write while Busy, or a BUFDATA access while BUFADDR
names no word; and it is cleared only by a CTRL write with CLRDROP set, or by reset. -/
def Obligations.DropIsSticky : Prop :=
  ∀ s t : State, step s = .next t →
    (s.drop = false → t.drop = true →
      (∃ v, s.turns.head? = some (writeTurn 0x24 v) ∧ ((∃ w0 w1, s.cs = .busy w0 w1) ∨ s.cs = .halted)) ∨
      (∃ v, s.turns.head? = some (writeTurn 0x2C v) ∧ ∃ w0 w1, s.cs = .busy w0 w1) ∨
      ((s.turns.head? = some (readTurn 0x2C) ∨ ∃ v, s.turns.head? = some (writeTurn 0x2C v)) ∧
        (s.cfg.nbank ≤ s.bufaddr.toNat / 2 ^ 28 ∨ 2 ^ s.cfg.K ≤ s.bufaddr.toNat % 2 ^ 28))) ∧
    (s.drop = true → t.drop = false →
      (∃ v, s.turns.head? = some (writeTurn 0x10 v) ∧ v.getLsbD 1 = true) ∨ ∃ b, s.turns.head? = some (.resetInput b))

/-- R23: CMDCNT, modulo `2^32`, counts the commands that the engine retires, and only those: a step in which the engine goes
from Busy to Idle adds 1; reset clears it; and no other step, a command that fails and one that is discarded among them,
changes it. -/
def Obligations.CounterCountsRetiredCommands : Prop :=
  ∀ s t : State, step s = .next t →
    (s.EngineNext → (∃ w0 w1, s.cs = .busy w0 w1) → t.cs = .idle → t.cmdcnt.toNat = (s.cmdcnt.toNat + 1) % 2 ^ 32) ∧
    (¬ (s.EngineNext ∧ (∃ w0 w1, s.cs = .busy w0 w1) ∧ t.cs = .idle) → t.cmdcnt = s.cmdcnt ∨
      (t.cmdcnt = 0 ∧ ∃ b, s.turns.head? = some (.resetInput b)))

/-- R149, R145, R62: no command and no host access writes ROOT, BITREV or CVALID, but the build, which runs only where CVALID is
0, as part of an engine step, and writes their contents; and reset. -/
def Obligations.CacheBuiltOnce : Prop :=
  ∀ s t : State, step s = .next t →
    (t.cvalid = s.cvalid ∧ t.root = s.root ∧ t.bitrev = s.bitrev) ∨
    (s.cvalid = false ∧ s.EngineNext ∧ (∃ w0 w1, s.cs = .busy w0 w1) ∧
      t.cvalid = true ∧ t.root = builtRoot s.cfg ∧ t.bitrev = builtBitrev s.cfg) ∨
    ∃ b, s.turns.head? = some (.resetInput b)

/-- R55, R57: a host read changes nothing in the block but DROP, and DROP only when BUFDATA is read while BUFADDR names no word
and the engine is not Busy (log 10). Reading a register again, with no host write and no engine step between, returns the same
value, a draw too; only STATUS can differ, where a BUFDATA read between has set DROP. -/
def Obligations.HostReadsHaveNoEffect : Prop :=
  (∀ (s t : State) (o : Fin 256), step (s.before (readTurn o)) = .next t →
    t = { s with busRead := t.busRead, drop := t.drop } ∧
    (t.drop = s.drop ∨
      (o = 0x2C ∧ t.busRead = 0 ∧ (∀ w0 w1, s.cs ≠ .busy w0 w1) ∧
        (s.cfg.nbank ≤ s.bufaddr.toNat / 2 ^ 28 ∨ 2 ^ s.cfg.K ≤ s.bufaddr.toNat % 2 ^ 28)))) ∧
  (∀ (s t u : State) (o : Fin 256) (between rest : List Turn),
    s.turns = readTurn o :: (between ++ readTurn o :: rest) →
    (∀ x ∈ between, (∃ o', x = readTurn o') ∨ (x = .engine ∧ ∀ w0 w1, s.cs ≠ .busy w0 w1)) →
    Host.Core.run core 1 s = .next t → Host.Core.run core (between.length + 2) s = .next u →
    u.busRead = t.busRead ∨ (o = 0x0C ∧ u.drop ≠ t.drop))

/-- R241: every accepted command finishes. From a Busy state that meets the invariant, with reset not asserted, the engine has
left Busy after at most one step more than there are turns to come, unless a step stops the model (an unwritten operand word, a
refused host access). -/
def Obligations.AcceptedCommandFinishes : Prop :=
  ∀ (s : State) (w0 : Word64) (w1 : Option Word64), s.Inv → s.inReset = false → s.cs = .busy w0 w1 →
    ∃ k ≤ s.turns.length + 1,
      (∃ t : State, Host.Core.run core k s = .next t ∧ ∀ v0 v1, t.cs ≠ .busy v0 v1) ∨
      Host.Core.run core k s = .fault .unwrittenRead ∨ Host.Core.run core k s = .refused .hostAccessForm
end

