-- ==== Sys2Proof/Laws/State.lean ====
section
/-!
SUPPORT. One lemma per field per update of a state, so that no later proof unfolds a record update; and the same for register
reads.
-/

namespace Sys2Proof.Machine

/-! ### State.retire -/

@[simp] theorem State.retire_cfg (s : State) : s.retire.cfg = s.cfg := rfl

@[simp] theorem State.retire_f (s : State) : s.retire.f = s.f := rfl

@[simp] theorem State.retire_cmdcnt (s : State) : s.retire.cmdcnt = s.cmdcnt + 1 := rfl

@[simp] theorem State.retire_eq (s : State) : s.retire.eq = s.eq := rfl

@[simp] theorem State.retire_lt (s : State) : s.retire.lt = s.lt := rfl

@[simp] theorem State.retire_buf (s : State) : s.retire.buf = s.buf := rfl

@[simp] theorem State.retire_root (s : State) : s.retire.root = s.root := rfl

@[simp] theorem State.retire_bitrev (s : State) : s.retire.bitrev = s.bitrev := rfl

@[simp] theorem State.retire_cvalid (s : State) : s.retire.cvalid = s.cvalid := rfl

@[simp] theorem State.retire_cs (s : State) : s.retire.cs = .idle := rfl

@[simp] theorem State.retire_drop (s : State) : s.retire.drop = s.drop := rfl

@[simp] theorem State.retire_errcode (s : State) : s.retire.errcode = s.errcode := rfl

@[simp] theorem State.retire_cmdLo (s : State) : s.retire.cmdLo = s.cmdLo := rfl

@[simp] theorem State.retire_bufaddr (s : State) : s.retire.bufaddr = s.bufaddr := rfl

@[simp] theorem State.retire_inReset (s : State) : s.retire.inReset = s.inReset := rfl

@[simp] theorem State.retire_turns (s : State) : s.retire.turns = s.turns := rfl

@[simp] theorem State.retire_busRead (s : State) : s.retire.busRead = s.busRead := rfl

@[simp] theorem State.retire_epoch (s : State) : s.retire.epoch = s.epoch := rfl

/-! ### State.raise -/

@[simp] theorem State.raise_cfg (s : State) (opc : BitVec 8) (c : Cause) : (s.raise opc c).cfg = s.cfg := rfl

@[simp] theorem State.raise_f (s : State) (opc : BitVec 8) (c : Cause) : (s.raise opc c).f = s.f := rfl

@[simp] theorem State.raise_cmdcnt (s : State) (opc : BitVec 8) (c : Cause) : (s.raise opc c).cmdcnt = s.cmdcnt := rfl

@[simp] theorem State.raise_eq (s : State) (opc : BitVec 8) (c : Cause) : (s.raise opc c).eq = s.eq := rfl

@[simp] theorem State.raise_lt (s : State) (opc : BitVec 8) (c : Cause) : (s.raise opc c).lt = s.lt := rfl

@[simp] theorem State.raise_buf (s : State) (opc : BitVec 8) (c : Cause) : (s.raise opc c).buf = s.buf := rfl

@[simp] theorem State.raise_root (s : State) (opc : BitVec 8) (c : Cause) : (s.raise opc c).root = s.root := rfl

@[simp] theorem State.raise_bitrev (s : State) (opc : BitVec 8) (c : Cause) : (s.raise opc c).bitrev = s.bitrev := rfl

@[simp] theorem State.raise_cvalid (s : State) (opc : BitVec 8) (c : Cause) : (s.raise opc c).cvalid = s.cvalid := rfl

@[simp] theorem State.raise_cs (s : State) (opc : BitVec 8) (c : Cause) : (s.raise opc c).cs = .halted := rfl

@[simp] theorem State.raise_drop (s : State) (opc : BitVec 8) (c : Cause) : (s.raise opc c).drop = s.drop := rfl

@[simp] theorem State.raise_errcode (s : State) (opc : BitVec 8) (c : Cause) : (s.raise opc c).errcode = errorWord opc c := rfl

@[simp] theorem State.raise_cmdLo (s : State) (opc : BitVec 8) (c : Cause) : (s.raise opc c).cmdLo = s.cmdLo := rfl

@[simp] theorem State.raise_bufaddr (s : State) (opc : BitVec 8) (c : Cause) : (s.raise opc c).bufaddr = s.bufaddr := rfl

@[simp] theorem State.raise_inReset (s : State) (opc : BitVec 8) (c : Cause) : (s.raise opc c).inReset = s.inReset := rfl

@[simp] theorem State.raise_turns (s : State) (opc : BitVec 8) (c : Cause) : (s.raise opc c).turns = s.turns := rfl

@[simp] theorem State.raise_busRead (s : State) (opc : BitVec 8) (c : Cause) : (s.raise opc c).busRead = s.busRead := rfl

@[simp] theorem State.raise_epoch (s : State) (opc : BitVec 8) (c : Cause) : (s.raise opc c).epoch = s.epoch := rfl

/-! ### State.setReg -/

@[simp] theorem State.setReg_cfg (s : State) (i : Reg) (v : Nat) : (s.setReg i v).cfg = s.cfg := rfl

@[simp] theorem State.setReg_f (s : State) (i : Reg) (v : Nat) : (s.setReg i v).f = s.f.set i v := rfl

@[simp] theorem State.setReg_cmdcnt (s : State) (i : Reg) (v : Nat) : (s.setReg i v).cmdcnt = s.cmdcnt := rfl

@[simp] theorem State.setReg_eq (s : State) (i : Reg) (v : Nat) : (s.setReg i v).eq = s.eq := rfl

@[simp] theorem State.setReg_lt (s : State) (i : Reg) (v : Nat) : (s.setReg i v).lt = s.lt := rfl

@[simp] theorem State.setReg_buf (s : State) (i : Reg) (v : Nat) : (s.setReg i v).buf = s.buf := rfl

@[simp] theorem State.setReg_root (s : State) (i : Reg) (v : Nat) : (s.setReg i v).root = s.root := rfl

@[simp] theorem State.setReg_bitrev (s : State) (i : Reg) (v : Nat) : (s.setReg i v).bitrev = s.bitrev := rfl

@[simp] theorem State.setReg_cvalid (s : State) (i : Reg) (v : Nat) : (s.setReg i v).cvalid = s.cvalid := rfl

@[simp] theorem State.setReg_cs (s : State) (i : Reg) (v : Nat) : (s.setReg i v).cs = s.cs := rfl

@[simp] theorem State.setReg_drop (s : State) (i : Reg) (v : Nat) : (s.setReg i v).drop = s.drop := rfl

@[simp] theorem State.setReg_errcode (s : State) (i : Reg) (v : Nat) : (s.setReg i v).errcode = s.errcode := rfl

@[simp] theorem State.setReg_cmdLo (s : State) (i : Reg) (v : Nat) : (s.setReg i v).cmdLo = s.cmdLo := rfl

@[simp] theorem State.setReg_bufaddr (s : State) (i : Reg) (v : Nat) : (s.setReg i v).bufaddr = s.bufaddr := rfl

@[simp] theorem State.setReg_inReset (s : State) (i : Reg) (v : Nat) : (s.setReg i v).inReset = s.inReset := rfl

@[simp] theorem State.setReg_turns (s : State) (i : Reg) (v : Nat) : (s.setReg i v).turns = s.turns := rfl

@[simp] theorem State.setReg_busRead (s : State) (i : Reg) (v : Nat) : (s.setReg i v).busRead = s.busRead := rfl

@[simp] theorem State.setReg_epoch (s : State) (i : Reg) (v : Nat) : (s.setReg i v).epoch = s.epoch := rfl

/-! ### State.bufWrite -/

@[simp] theorem State.bufWrite_cfg (s : State) (b i : Nat) (v : Nat) : (s.bufWrite b i v).cfg = s.cfg := rfl

@[simp] theorem State.bufWrite_f (s : State) (b i : Nat) (v : Nat) : (s.bufWrite b i v).f = s.f := rfl

@[simp] theorem State.bufWrite_cmdcnt (s : State) (b i : Nat) (v : Nat) : (s.bufWrite b i v).cmdcnt = s.cmdcnt := rfl

@[simp] theorem State.bufWrite_eq (s : State) (b i : Nat) (v : Nat) : (s.bufWrite b i v).eq = s.eq := rfl

@[simp] theorem State.bufWrite_lt (s : State) (b i : Nat) (v : Nat) : (s.bufWrite b i v).lt = s.lt := rfl

@[simp] theorem State.bufWrite_buf (s : State) (b i : Nat) (v : Nat) : (s.bufWrite b i v).buf = s.buf.write (wordKey b i) v := rfl

@[simp] theorem State.bufWrite_root (s : State) (b i : Nat) (v : Nat) : (s.bufWrite b i v).root = s.root := rfl

@[simp] theorem State.bufWrite_bitrev (s : State) (b i : Nat) (v : Nat) : (s.bufWrite b i v).bitrev = s.bitrev := rfl

@[simp] theorem State.bufWrite_cvalid (s : State) (b i : Nat) (v : Nat) : (s.bufWrite b i v).cvalid = s.cvalid := rfl

@[simp] theorem State.bufWrite_cs (s : State) (b i : Nat) (v : Nat) : (s.bufWrite b i v).cs = s.cs := rfl

@[simp] theorem State.bufWrite_drop (s : State) (b i : Nat) (v : Nat) : (s.bufWrite b i v).drop = s.drop := rfl

@[simp] theorem State.bufWrite_errcode (s : State) (b i : Nat) (v : Nat) : (s.bufWrite b i v).errcode = s.errcode := rfl

@[simp] theorem State.bufWrite_cmdLo (s : State) (b i : Nat) (v : Nat) : (s.bufWrite b i v).cmdLo = s.cmdLo := rfl

@[simp] theorem State.bufWrite_bufaddr (s : State) (b i : Nat) (v : Nat) : (s.bufWrite b i v).bufaddr = s.bufaddr := rfl

@[simp] theorem State.bufWrite_inReset (s : State) (b i : Nat) (v : Nat) : (s.bufWrite b i v).inReset = s.inReset := rfl

@[simp] theorem State.bufWrite_turns (s : State) (b i : Nat) (v : Nat) : (s.bufWrite b i v).turns = s.turns := rfl

@[simp] theorem State.bufWrite_busRead (s : State) (b i : Nat) (v : Nat) : (s.bufWrite b i v).busRead = s.busRead := rfl

@[simp] theorem State.bufWrite_epoch (s : State) (b i : Nat) (v : Nat) : (s.bufWrite b i v).epoch = s.epoch := rfl

/-! ### State.setFlags -/

@[simp] theorem State.setFlags_cfg (s : State) (a b : Nat) : (s.setFlags a b).cfg = s.cfg := rfl

@[simp] theorem State.setFlags_f (s : State) (a b : Nat) : (s.setFlags a b).f = s.f := rfl

@[simp] theorem State.setFlags_cmdcnt (s : State) (a b : Nat) : (s.setFlags a b).cmdcnt = s.cmdcnt := rfl

@[simp] theorem State.setFlags_eq (s : State) (a b : Nat) : (s.setFlags a b).eq = eqFlag a b := rfl

@[simp] theorem State.setFlags_lt (s : State) (a b : Nat) : (s.setFlags a b).lt = ltFlag a b := rfl

@[simp] theorem State.setFlags_buf (s : State) (a b : Nat) : (s.setFlags a b).buf = s.buf := rfl

@[simp] theorem State.setFlags_root (s : State) (a b : Nat) : (s.setFlags a b).root = s.root := rfl

@[simp] theorem State.setFlags_bitrev (s : State) (a b : Nat) : (s.setFlags a b).bitrev = s.bitrev := rfl

@[simp] theorem State.setFlags_cvalid (s : State) (a b : Nat) : (s.setFlags a b).cvalid = s.cvalid := rfl

@[simp] theorem State.setFlags_cs (s : State) (a b : Nat) : (s.setFlags a b).cs = s.cs := rfl

@[simp] theorem State.setFlags_drop (s : State) (a b : Nat) : (s.setFlags a b).drop = s.drop := rfl

@[simp] theorem State.setFlags_errcode (s : State) (a b : Nat) : (s.setFlags a b).errcode = s.errcode := rfl

@[simp] theorem State.setFlags_cmdLo (s : State) (a b : Nat) : (s.setFlags a b).cmdLo = s.cmdLo := rfl

@[simp] theorem State.setFlags_bufaddr (s : State) (a b : Nat) : (s.setFlags a b).bufaddr = s.bufaddr := rfl

@[simp] theorem State.setFlags_inReset (s : State) (a b : Nat) : (s.setFlags a b).inReset = s.inReset := rfl

@[simp] theorem State.setFlags_turns (s : State) (a b : Nat) : (s.setFlags a b).turns = s.turns := rfl

@[simp] theorem State.setFlags_busRead (s : State) (a b : Nat) : (s.setFlags a b).busRead = s.busRead := rfl

@[simp] theorem State.setFlags_epoch (s : State) (a b : Nat) : (s.setFlags a b).epoch = s.epoch := rfl

/-! ### State.clearDrop -/

@[simp] theorem State.clearDrop_cfg (s : State) : s.clearDrop.cfg = s.cfg := rfl

@[simp] theorem State.clearDrop_f (s : State) : s.clearDrop.f = s.f := rfl

@[simp] theorem State.clearDrop_cmdcnt (s : State) : s.clearDrop.cmdcnt = s.cmdcnt := rfl

@[simp] theorem State.clearDrop_eq (s : State) : s.clearDrop.eq = s.eq := rfl

@[simp] theorem State.clearDrop_lt (s : State) : s.clearDrop.lt = s.lt := rfl

@[simp] theorem State.clearDrop_buf (s : State) : s.clearDrop.buf = s.buf := rfl

@[simp] theorem State.clearDrop_root (s : State) : s.clearDrop.root = s.root := rfl

@[simp] theorem State.clearDrop_bitrev (s : State) : s.clearDrop.bitrev = s.bitrev := rfl

@[simp] theorem State.clearDrop_cvalid (s : State) : s.clearDrop.cvalid = s.cvalid := rfl

@[simp] theorem State.clearDrop_cs (s : State) : s.clearDrop.cs = s.cs := rfl

@[simp] theorem State.clearDrop_drop (s : State) : s.clearDrop.drop = false := rfl

@[simp] theorem State.clearDrop_errcode (s : State) : s.clearDrop.errcode = s.errcode := rfl

@[simp] theorem State.clearDrop_cmdLo (s : State) : s.clearDrop.cmdLo = s.cmdLo := rfl

@[simp] theorem State.clearDrop_bufaddr (s : State) : s.clearDrop.bufaddr = s.bufaddr := rfl

@[simp] theorem State.clearDrop_inReset (s : State) : s.clearDrop.inReset = s.inReset := rfl

@[simp] theorem State.clearDrop_turns (s : State) : s.clearDrop.turns = s.turns := rfl

@[simp] theorem State.clearDrop_busRead (s : State) : s.clearDrop.busRead = s.busRead := rfl

@[simp] theorem State.clearDrop_epoch (s : State) : s.clearDrop.epoch = s.epoch := rfl

/-! ### State.nextTurns -/

@[simp] theorem State.nextTurns_cfg (s : State) : s.nextTurns.cfg = s.cfg := rfl

@[simp] theorem State.nextTurns_f (s : State) : s.nextTurns.f = s.f := rfl

@[simp] theorem State.nextTurns_cmdcnt (s : State) : s.nextTurns.cmdcnt = s.cmdcnt := rfl

@[simp] theorem State.nextTurns_eq (s : State) : s.nextTurns.eq = s.eq := rfl

@[simp] theorem State.nextTurns_lt (s : State) : s.nextTurns.lt = s.lt := rfl

@[simp] theorem State.nextTurns_buf (s : State) : s.nextTurns.buf = s.buf := rfl

@[simp] theorem State.nextTurns_root (s : State) : s.nextTurns.root = s.root := rfl

@[simp] theorem State.nextTurns_bitrev (s : State) : s.nextTurns.bitrev = s.bitrev := rfl

@[simp] theorem State.nextTurns_cvalid (s : State) : s.nextTurns.cvalid = s.cvalid := rfl

@[simp] theorem State.nextTurns_cs (s : State) : s.nextTurns.cs = s.cs := rfl

@[simp] theorem State.nextTurns_drop (s : State) : s.nextTurns.drop = s.drop := rfl

@[simp] theorem State.nextTurns_errcode (s : State) : s.nextTurns.errcode = s.errcode := rfl

@[simp] theorem State.nextTurns_cmdLo (s : State) : s.nextTurns.cmdLo = s.cmdLo := rfl

@[simp] theorem State.nextTurns_bufaddr (s : State) : s.nextTurns.bufaddr = s.bufaddr := rfl

@[simp] theorem State.nextTurns_inReset (s : State) : s.nextTurns.inReset = s.inReset := rfl

@[simp] theorem State.nextTurns_turns (s : State) : s.nextTurns.turns = s.turns.tail := rfl

@[simp] theorem State.nextTurns_busRead (s : State) : s.nextTurns.busRead = s.busRead := rfl

@[simp] theorem State.nextTurns_epoch (s : State) : s.nextTurns.epoch = s.epoch := rfl

/-! ### State.nextEpoch -/

@[simp] theorem State.nextEpoch_cfg (s : State) : s.nextEpoch.cfg = s.cfg := rfl

@[simp] theorem State.nextEpoch_f (s : State) : s.nextEpoch.f = s.f := rfl

@[simp] theorem State.nextEpoch_cmdcnt (s : State) : s.nextEpoch.cmdcnt = s.cmdcnt := rfl

@[simp] theorem State.nextEpoch_eq (s : State) : s.nextEpoch.eq = s.eq := rfl

@[simp] theorem State.nextEpoch_lt (s : State) : s.nextEpoch.lt = s.lt := rfl

@[simp] theorem State.nextEpoch_buf (s : State) : s.nextEpoch.buf = s.buf := rfl

@[simp] theorem State.nextEpoch_root (s : State) : s.nextEpoch.root = s.root := rfl

@[simp] theorem State.nextEpoch_bitrev (s : State) : s.nextEpoch.bitrev = s.bitrev := rfl

@[simp] theorem State.nextEpoch_cvalid (s : State) : s.nextEpoch.cvalid = s.cvalid := rfl

@[simp] theorem State.nextEpoch_cs (s : State) : s.nextEpoch.cs = s.cs := rfl

@[simp] theorem State.nextEpoch_drop (s : State) : s.nextEpoch.drop = s.drop := rfl

@[simp] theorem State.nextEpoch_errcode (s : State) : s.nextEpoch.errcode = s.errcode := rfl

@[simp] theorem State.nextEpoch_cmdLo (s : State) : s.nextEpoch.cmdLo = s.cmdLo := rfl

@[simp] theorem State.nextEpoch_bufaddr (s : State) : s.nextEpoch.bufaddr = s.bufaddr := rfl

@[simp] theorem State.nextEpoch_inReset (s : State) : s.nextEpoch.inReset = s.inReset := rfl

@[simp] theorem State.nextEpoch_turns (s : State) : s.nextEpoch.turns = s.turns := rfl

@[simp] theorem State.nextEpoch_busRead (s : State) : s.nextEpoch.busRead = s.busRead := rfl

@[simp] theorem State.nextEpoch_epoch (s : State) : s.nextEpoch.epoch = s.epoch + 1 := rfl

/-! ### State.ensureCache -/

@[simp] theorem State.ensureCache_cfg (s : State) : s.ensureCache.cfg = s.cfg := by
  unfold State.ensureCache; split <;> rfl

@[simp] theorem State.ensureCache_f (s : State) : s.ensureCache.f = s.f := by
  unfold State.ensureCache; split <;> rfl

@[simp] theorem State.ensureCache_cmdcnt (s : State) : s.ensureCache.cmdcnt = s.cmdcnt := by
  unfold State.ensureCache; split <;> rfl

@[simp] theorem State.ensureCache_eq (s : State) : s.ensureCache.eq = s.eq := by
  unfold State.ensureCache; split <;> rfl

@[simp] theorem State.ensureCache_lt (s : State) : s.ensureCache.lt = s.lt := by
  unfold State.ensureCache; split <;> rfl

@[simp] theorem State.ensureCache_buf (s : State) : s.ensureCache.buf = s.buf := by
  unfold State.ensureCache; split <;> rfl

@[simp] theorem State.ensureCache_cs (s : State) : s.ensureCache.cs = s.cs := by
  unfold State.ensureCache; split <;> rfl

@[simp] theorem State.ensureCache_drop (s : State) : s.ensureCache.drop = s.drop := by
  unfold State.ensureCache; split <;> rfl

@[simp] theorem State.ensureCache_errcode (s : State) : s.ensureCache.errcode = s.errcode := by
  unfold State.ensureCache; split <;> rfl

@[simp] theorem State.ensureCache_cmdLo (s : State) : s.ensureCache.cmdLo = s.cmdLo := by
  unfold State.ensureCache; split <;> rfl

@[simp] theorem State.ensureCache_bufaddr (s : State) : s.ensureCache.bufaddr = s.bufaddr := by
  unfold State.ensureCache; split <;> rfl

@[simp] theorem State.ensureCache_inReset (s : State) : s.ensureCache.inReset = s.inReset := by
  unfold State.ensureCache; split <;> rfl

@[simp] theorem State.ensureCache_turns (s : State) : s.ensureCache.turns = s.turns := by
  unfold State.ensureCache; split <;> rfl

@[simp] theorem State.ensureCache_busRead (s : State) : s.ensureCache.busRead = s.busRead := by
  unfold State.ensureCache; split <;> rfl

@[simp] theorem State.ensureCache_epoch (s : State) : s.ensureCache.epoch = s.epoch := by
  unfold State.ensureCache; split <;> rfl

@[simp] theorem State.ensureCache_cvalid (s : State) : s.ensureCache.cvalid = true := by
  unfold State.ensureCache; split <;> simp [*]

theorem State.ensureCache_of_valid {s : State} (h : s.cvalid = true) : s.ensureCache = s := by
  simp [State.ensureCache, h]

/-- R144, R145: the build writes both tables. -/
theorem State.ensureCache_of_not_valid {s : State} (h : s.cvalid = false) :
    s.ensureCache = { s with root := builtRoot s.cfg, bitrev := builtBitrev s.cfg, cvalid := true } := by
  simp [State.ensureCache, h]

/-! ### Registers -/

/-- R21: a written register reads as written. -/
@[simp] theorem State.reg_setReg_same (s : State) (i : Reg) (v : Nat) : (s.setReg i v).reg i = v := by
  simp [State.reg, State.setReg]

/-- R21: the registers have no aliases. -/
theorem State.reg_setReg_other (s : State) {i j : Reg} (v : Nat) (h : j ≠ i) : (s.setReg i v).reg j = s.reg j := by
  have hij : (i : Nat) ≠ j := fun e => h (Fin.ext e.symm)
  simp [State.reg, State.setReg, Vector.getElem_set_ne _ _ hij]

theorem State.reg_setReg (s : State) (i j : Reg) (v : Nat) :
    (s.setReg i v).reg j = if j = i then v else s.reg j := by
  split
  · next h => subst h; simp
  · next h => exact s.reg_setReg_other v h

/-- A register read looks at `f` alone. -/
theorem State.reg_congr {s t : State} (h : t.f = s.f) (i : Reg) : t.reg i = s.reg i := by
  simp [State.reg, h]

@[simp] theorem State.reg_retire (s : State) (i : Reg) : s.retire.reg i = s.reg i := rfl
@[simp] theorem State.reg_raise (s : State) (opc : BitVec 8) (c : Cause) (i : Reg) : (s.raise opc c).reg i = s.reg i := rfl
@[simp] theorem State.reg_bufWrite (s : State) (b k : Nat) (v : Nat) (i : Reg) : (s.bufWrite b k v).reg i = s.reg i := rfl
@[simp] theorem State.reg_setFlags (s : State) (a b : Nat) (i : Reg) : (s.setFlags a b).reg i = s.reg i := rfl
@[simp] theorem State.reg_ensureCache (s : State) (i : Reg) : s.ensureCache.reg i = s.reg i :=
  State.reg_congr s.ensureCache_f i
@[simp] theorem State.reg_nextTurns (s : State) (i : Reg) : s.nextTurns.reg i = s.reg i := rfl

end Sys2Proof.Machine
end

