-- ==== Sys2Proof/Laws/Memory.lean ====
section
/-!
SUPPORT. The laws of the buffer: a read after a write, the canonical form, runs of words.
-/

namespace Sys2Proof.Machine

/-! ### One word -/

@[simp] theorem Memory.read_nil (a : Nat) : Memory.read [] a = none := rfl

/-- A read after a write: the written word has the written value, and every other word is as before. -/
theorem Memory.read_write (m : Memory) (a b : Nat) (x : Nat) :
    (m.write a x).read b = if b = a then some x else m.read b := by
  induction m with
  | nil => simp [Memory.write, Memory.read]
  | cons kv m ih =>
    obtain ⟨k, v⟩ := kv
    unfold Memory.write
    split
    · simp [Memory.read]
    · split
      · next h => subst h; by_cases hb : b = a <;> simp [Memory.read, hb]
      · next h =>
        by_cases hb : b = k
        · subst hb
          have : b ≠ a := fun e => h e.symm
          simp [Memory.read, this]
        · simp [Memory.read, hb, ih]

@[simp] theorem Memory.read_write_same (m : Memory) (a : Nat) (x : Nat) : (m.write a x).read a = some x := by
  simp [Memory.read_write]

theorem Memory.read_write_other (m : Memory) {a b : Nat} (x : Nat) (h : b ≠ a) :
    (m.write a x).read b = m.read b := by
  simp [Memory.read_write, h]

/-- A key of the memory after a write is the written key or a key of the memory before. -/
theorem Memory.mem_write {m : Memory} {a : Nat} {x : Nat} {y : Nat × Nat} (h : y ∈ m.write a x) :
    y = (a, x) ∨ y ∈ m := by
  induction m with
  | nil => simpa [Memory.write] using h
  | cons kv m ih =>
    obtain ⟨k, v⟩ := kv
    unfold Memory.write at h
    split at h
    · simpa using h
    · split at h
      · rcases List.mem_cons.mp h with h | h
        · exact .inl h
        · exact .inr (List.mem_cons_of_mem _ h)
      · rcases List.mem_cons.mp h with h | h
        · exact .inr (h ▸ List.mem_cons_self)
        · exact (ih h).imp_right (List.mem_cons_of_mem _)

/-- A write keeps the canonical form. -/
theorem Memory.wf_write {m : Memory} (h : m.wf) (a : Nat) (x : Nat) : (m.write a x).wf := by
  induction m with
  | nil => simp [Memory.write]
  | cons kv m ih =>
    obtain ⟨k, v⟩ := kv
    obtain ⟨hk, hm⟩ := List.pairwise_cons.mp h
    unfold Memory.write
    split
    · next hlt =>
      refine List.pairwise_cons.mpr ⟨fun y hy => ?_, h⟩
      rcases List.mem_cons.mp hy with rfl | hy
      · exact hlt
      · exact hlt.trans (hk y hy)
    · next hge =>
      split
      · next heq => subst heq; exact List.pairwise_cons.mpr ⟨hk, hm⟩
      · next hne =>
        refine List.pairwise_cons.mpr ⟨fun y hy => ?_, ih hm⟩
        rcases Memory.mem_write hy with rfl | hy
        · exact lt_of_le_of_ne (not_lt.mp hge) fun e => hne e.symm
        · exact hk y hy

/-- In a canonical memory the pairs are exactly what reads answer. -/
theorem Memory.mem_iff_read {m : Memory} (h : m.wf) (k : Nat) (v : Nat) : (k, v) ∈ m ↔ m.read k = some v := by
  induction m with
  | nil => simp
  | cons kv m ih =>
    obtain ⟨k', v'⟩ := kv
    obtain ⟨hk, hm⟩ := List.pairwise_cons.mp h
    by_cases hkk : k = k'
    · subst hkk
      have hout : (k, v) ∉ m := fun hin => lt_irrefl k (hk _ hin)
      simp [Memory.read, hout, eq_comm]
    · simp [Memory.read, hkk, ih hm]

/-- The canonical form earns its name: memories that read alike are equal. -/
theorem Memory.ext_read {m n : Memory} (hm : m.wf) (hn : n.wf) (h : ∀ k, m.read k = n.read k) : m = n := by
  have irr : ∀ {l : Memory}, l.wf → l.Nodup := fun hl => hl.imp fun {x y} hxy e => by
    subst e; exact lt_irrefl _ hxy
  refine List.Perm.eq_of_pairwise ?_ hm hn ((List.perm_ext_iff_of_nodup (irr hm) (irr hn)).mpr ?_)
  · intro a b _ _ hab hba
    exact absurd hab (not_lt.mpr hba.le)
  · rintro ⟨k, v⟩
    rw [Memory.mem_iff_read hm, Memory.mem_iff_read hn, h]

/-! ### Keys -/

/-- Two words of a bank of at most `2^28` words have different keys. -/
theorem wordKey_inj {b c i j : Nat} (hi : i < 2 ^ 28) (hj : j < 2 ^ 28) : wordKey b i = wordKey c j ↔ b = c ∧ i = j := by
  unfold wordKey
  omega

/-- R26, R50: a write of word `i` of bank `b` leaves every other word as it was, in that bank and in the others. -/
theorem Memory.read_write_word (m : Memory) {b c i j : Nat} (v : Nat) (hi : i < 2 ^ 28) (hj : j < 2 ^ 28)
    (h : ¬ (c = b ∧ j = i)) : (m.write (wordKey b i) v).read (wordKey c j) = m.read (wordKey c j) :=
  Memory.read_write_other _ _ fun e => h ((wordKey_inj hj hi).mp e)

/-! ### Runs of words -/

/-- A run that reads answers the value of each of its words, in order. -/
theorem Memory.readRun_eq_some {m : Memory} {b i n : Nat} {a : List Nat} :
    m.readRun b i n = some a ↔ a.length = n ∧ ∀ j < n, m.read (wordKey b (i + j)) = a[j]? := by
  induction n generalizing i a with
  | zero => cases a <;> simp [Memory.readRun]
  | succ n ih =>
    constructor
    · intro h
      unfold Memory.readRun at h
      split at h
      · next v vs hv hvs =>
        obtain rfl : v :: vs = a := by simpa using h
        obtain ⟨hl, hr⟩ := ih.mp hvs
        refine ⟨by simp [hl], fun j hj => ?_⟩
        cases j with
        | zero => simpa using hv
        | succ j =>
          have := hr j (by omega)
          rw [show i + 1 + j = i + (j + 1) by omega] at this
          simpa using this
      · cases h
    · rintro ⟨hl, hr⟩
      cases a with
      | nil => simp at hl
      | cons v vs =>
        have hv : m.read (wordKey b i) = some v := by simpa using hr 0 (by omega)
        have hvs : m.readRun b (i + 1) n = some vs := by
          refine ih.mpr ⟨by simpa using hl, fun j hj => ?_⟩
          have := hr (j + 1) (by omega)
          rw [show i + (j + 1) = i + 1 + j by omega] at this
          simpa using this
        simp [Memory.readRun, hv, hvs]

/-- A run reads exactly when each of its words has been written. -/
theorem Memory.readRun_isSome {m : Memory} {b i n : Nat} :
    (m.readRun b i n).isSome = true ↔ ∀ j < n, (m.read (wordKey b (i + j))).isSome = true := by
  induction n generalizing i with
  | zero => simp [Memory.readRun]
  | succ n ih =>
    have hstep : (m.readRun b i (n + 1)).isSome = true ↔
        (m.read (wordKey b i)).isSome = true ∧ (m.readRun b (i + 1) n).isSome = true := by
      rw [Memory.readRun]
      cases m.read (wordKey b i) <;> cases m.readRun b (i + 1) n <;> simp
    rw [hstep, ih]
    constructor
    · rintro ⟨h0, h⟩ j hj
      cases j with
      | zero => simpa using h0
      | succ j => simpa [show i + (j + 1) = i + 1 + j by omega] using h j (by omega)
    · intro h
      refine ⟨by simpa using h 0 (by omega), fun j hj => ?_⟩
      simpa [show i + 1 + j = i + (j + 1) by omega] using h (j + 1) (by omega)

/-- A write outside a run does not change it. -/
theorem Memory.readRun_write_before {m : Memory} {b i n k : Nat} {x : Nat}
    (h : ∀ j < n, wordKey b (i + j) ≠ k) : (m.write k x).readRun b i n = m.readRun b i n := by
  induction n generalizing i with
  | zero => rfl
  | succ n ih =>
    have h0 : (m.write k x).read (wordKey b i) = m.read (wordKey b i) :=
      Memory.read_write_other _ _ (by simpa using h 0 (by omega))
    have h1 := ih (i := i + 1) fun j hj => by
      simpa [show i + 1 + j = i + (j + 1) by omega] using h (j + 1) (by omega)
    unfold Memory.readRun
    rw [h0, h1]

theorem wordKey_add (b i j : Nat) : wordKey b (i + j) = wordKey b i + j := by
  unfold wordKey
  omega

/-- Reads after a run of writes: a word of the run has the written value, every other word is as before. -/
theorem Memory.read_writeRun (m : Memory) (b i : Nat) (a : List Nat) (k : Nat) :
    (m.writeRun b i a).read k =
      if wordKey b i ≤ k ∧ k < wordKey b i + a.length then a[k - wordKey b i]? else m.read k := by
  induction a generalizing i m with
  | nil =>
    rw [if_neg (by simp only [List.length_nil]; omega)]
    rfl
  | cons v vs ih =>
    rw [Memory.writeRun, ih, Memory.read_write, wordKey_add, List.length_cons]
    generalize wordKey b i = base
    by_cases h1 : k = base
    · subst h1
      simp
    · by_cases h2 : base + 1 ≤ k ∧ k < base + 1 + vs.length
      · have hpos : k - base = k - (base + 1) + 1 := by omega
        rw [if_pos h2, if_pos (by omega), hpos, List.getElem?_cons_succ]
      · rw [if_neg h2, if_neg h1, if_neg (by omega)]

theorem Memory.wf_writeRun {m : Memory} (h : m.wf) (b i : Nat) (a : List Nat) : (m.writeRun b i a).wf := by
  induction a generalizing i m with
  | nil => exact h
  | cons v vs ih => exact ih (Memory.wf_write h _ _) _

/-- The words of a run read back as written. -/
theorem Memory.read_writeRun_at (m : Memory) (b : Nat) (a : List Nat) {j : Nat} (h : j < a.length) :
    (m.writeRun b 0 a).read (wordKey b j) = a[j]? := by
  have hk : wordKey b j = wordKey b 0 + j := by rw [← wordKey_add, Nat.zero_add]
  rw [Memory.read_writeRun, hk, if_pos (by omega), Nat.add_sub_cancel_left]

/-- R26, R50, R165: a run of writes to words 0, 1, ... of bank `b` leaves every other word as it was, in that bank and in the
others. -/
theorem Memory.read_writeRun_word (m : Memory) {b c j : Nat} (a : List Nat) (hj : j < 2 ^ 28) (ha : a.length ≤ 2 ^ 28)
    (h : ¬ (c = b ∧ j < a.length)) : (m.writeRun b 0 a).read (wordKey c j) = m.read (wordKey c j) := by
  rw [Memory.read_writeRun, if_neg]
  unfold wordKey
  omega

/-- Reset's memory has the canonical form. -/
theorem State.reset_buf_wf : State.reset.buf.wf :=
  List.Pairwise.nil

end Sys2Proof.Machine
end

