-- ==== Sys2Proof/Laws/Modular.lean ====
section
/-!
SUPPORT. What each field function computes: its range, its value in `ZMod p`, and powers as powers (R100 to R106).
-/

namespace Sys2Proof.Config

/-! ### The configuration -/

theorem wellFormed (c : Config) : c.toParams.WellFormed :=
  of_decide_eq_true c.ok

theorem three_le (c : Config) : 3 ≤ c.p := c.wellFormed.2.1
theorem p_pos (c : Config) : 0 < c.p := by have := c.three_le; omega
theorem one_lt (c : Config) : 1 < c.p := by have := c.three_le; omega
theorem p_lt (c : Config) : c.p < 2 ^ 32 := c.wellFormed.2.2.1
theorem one_le_K (c : Config) : 1 ≤ c.K := c.wellFormed.2.2.2.1
theorem K_le (c : Config) : c.K ≤ 27 := c.wellFormed.2.2.2.2.1
theorem size_dvd (c : Config) : c.size ∣ c.p - 1 := c.wellFormed.2.2.2.2.2.1
theorem g_primitive (c : Config) : IsPrimitiveRoot c.p c.g := c.wellFormed.2.2.2.2.2.2.1
theorem one_le_nbank (c : Config) : 1 ≤ c.nbank := c.wellFormed.2.2.2.2.2.2.2.1
theorem nbank_le (c : Config) : c.nbank ≤ 16 := c.wellFormed.2.2.2.2.2.2.2.2

theorem prime (c : Config) : Nat.Prime c.p :=
  prime_of_isPrime c.wellFormed.1

end Sys2Proof.Config

namespace Sys2Proof.Machine

/-! ### Ranges -/

theorem reduce_lt {p : Nat} (hp : 0 < p) (x : Int) : reduce p x < p := by
  have h1 := Int.emod_nonneg x (show (p : Int) ≠ 0 by omega)
  have h2 := Int.emod_lt_of_pos x (show (0 : Int) < p by omega)
  exact (Int.toNat_lt h1).mpr h2

theorem fadd_lt {p : Nat} (hp : 0 < p) (a b : Nat) : fadd p a b < p := Nat.mod_lt _ hp
theorem fsub_lt {p : Nat} (hp : 0 < p) (a b : Nat) : fsub p a b < p := reduce_lt hp _
theorem fmul_lt {p : Nat} (hp : 0 < p) (a b : Nat) : fmul p a b < p := Nat.mod_lt _ hp
theorem fneg_lt {p : Nat} (hp : 0 < p) (a : Nat) : fneg p a < p := reduce_lt hp _

/-! ### Values -/

/-- R100: the reduction is the mathematical remainder. -/
theorem coe_reduce {p : Nat} (hp : 0 < p) (x : Int) : ((reduce p x : Nat) : Int) = x % p :=
  Int.toNat_of_nonneg (Int.emod_nonneg x (by omega))

theorem cast_reduce {p : Nat} (hp : 0 < p) (x : Int) : ((reduce p x : Nat) : ZMod p) = x := by
  rw [← Int.cast_natCast, coe_reduce hp, ZMod.intCast_mod]

theorem cast_fadd {p : Nat} (a b : Nat) : ((fadd p a b : Nat) : ZMod p) = a + b := by
  simp [fadd]

theorem cast_fsub {p : Nat} (hp : 0 < p) (a b : Nat) : ((fsub p a b : Nat) : ZMod p) = a - b := by
  simp [fsub, cast_reduce hp]

theorem cast_fmul {p : Nat} (a b : Nat) : ((fmul p a b : Nat) : ZMod p) = a * b := by
  simp [fmul]

theorem cast_fneg {p : Nat} (hp : 0 < p) (a : Nat) : ((fneg p a : Nat) : ZMod p) = -a := by
  simp [fneg, cast_reduce hp]

/-- Residues that agree in `ZMod p` are equal. -/
theorem eq_of_cast_eq {p : Nat} {a b : Nat} (ha : a < p) (hb : b < p) (h : (a : ZMod p) = b) : a = b := by
  rw [ZMod.natCast_eq_natCast_iff, Nat.ModEq, Nat.mod_eq_of_lt ha, Nat.mod_eq_of_lt hb] at h
  exact h

/-! ### Powers -/

/-- The loop multiplies in the low `n` bits of the exponent. -/
theorem powLoop_modEq {p : Nat} (a e n : Nat) (r : Nat) :
    powLoop p a e n r ≡ r ^ 2 ^ n * a ^ (e % 2 ^ n) [MOD p] := by
  induction n generalizing r with
  | zero => simp [powLoop, Nat.mod_one, Nat.ModEq.refl]
  | succ n ih =>
    have hbits : e % 2 ^ (n + 1) = e % 2 ^ n + 2 ^ n * (e.testBit n).toNat := by
      rw [Nat.mod_pow_succ, Nat.toNat_testBit]
    have hsq : fmul p r r ≡ r ^ 2 [MOD p] := by
      rw [pow_two]; exact Nat.mod_modEq _ _
    rw [powLoop, hbits]
    refine (ih _).trans ?_
    cases e.testBit n
    · have := (hsq.pow (2 ^ n)).mul_right (a ^ (e % 2 ^ n))
      simpa [← pow_mul, ← pow_succ'] using this
    · have hstep : fmul p (fmul p r r) a ≡ r ^ 2 * a [MOD p] :=
        (Nat.mod_modEq _ _).trans (hsq.mul_right a)
      have := (hstep.pow (2 ^ n)).mul_right (a ^ (e % 2 ^ n))
      rw [mul_pow, ← pow_mul, ← pow_succ', mul_assoc, ← pow_add, Nat.add_comm (2 ^ n)] at this
      simpa using this

theorem lt_two_pow_bitLength (e : Nat) : e < 2 ^ bitLength e := by
  unfold bitLength
  split
  · simp [*]
  · exact Nat.lt_log2_self

/-- After at least one step the loop's result is reduced. -/
theorem powLoop_lt {p : Nat} (hp : 0 < p) (a e : Nat) : ∀ (n : Nat) (r : Nat), r < p → powLoop p a e n r < p
  | 0, _, hr => hr
  | n + 1, _, _ => by
    unfold powLoop
    apply powLoop_lt hp a e n
    cases e.testBit n <;> exact Nat.mod_lt _ hp

theorem fpow_lt {p : Nat} (hp : 1 < p) (a e : Nat) : fpow p a e < p :=
  powLoop_lt (by omega) a e _ _ hp

/-- R106: binary exponentiation computes the power. -/
theorem fpow_eq {p : Nat} (hp : 1 < p) (a e : Nat) : fpow p a e = a ^ e % p := by
  have h : fpow p a e ≡ a ^ e [MOD p] := by
    simpa [fpow, Nat.mod_eq_of_lt (lt_two_pow_bitLength e)] using powLoop_modEq (p := p) a e (bitLength e) 1
  rwa [Nat.ModEq, Nat.mod_eq_of_lt (fpow_lt hp a e)] at h

theorem cast_fpow {p : Nat} (hp : 1 < p) (a e : Nat) : ((fpow p a e : Nat) : ZMod p) = (a : ZMod p) ^ e := by
  simp [fpow_eq hp]

theorem finv_lt {p : Nat} (hp : 1 < p) (a : Nat) : finv p a < p :=
  fpow_lt hp a _

/-- R105: `finv` of a non-zero residue is its multiplicative inverse (Fermat). -/
theorem cast_finv (c : Config) {a : Nat} (h : (a : ZMod c.p) ≠ 0) : ((finv c.p a : Nat) : ZMod c.p) = (a : ZMod c.p)⁻¹ := by
  have : Fact (Nat.Prime c.p) := ⟨c.prime⟩
  rw [finv, cast_fpow c.one_lt]
  apply eq_inv_of_mul_eq_one_left
  rw [← pow_succ, show c.p - 2 + 1 = c.p - 1 by have := c.three_le; omega]
  exact ZMod.pow_card_sub_one_eq_one h

end Sys2Proof.Machine
end

