-- ==== Sys2Proof/Laws/Commands.lean ====
section
/-!
SUPPORT. When each operand check passes, and one lemma that says once what a command can do (`exec_next_cases`), which claims
about all commands cite instead of unfolding the meanings.
-/

namespace Sys2Proof.Machine

/-! ### The checks -/

theorem bankCause_eq_none {c : Config} {bk : Bank} : bankCause c bk = none ↔ (bk : Nat) < c.nbank := by
  unfold bankCause
  split <;> simp <;> omega

theorem wordCause_eq_none {c : Config} {bk : Bank} {i : Nat} :
    wordCause c bk i = none ↔ (bk : Nat) < c.nbank ∧ i < c.size := by
  unfold wordCause
  by_cases hb : (bk : Nat) < c.nbank
  · rw [bankCause_eq_none.mpr hb]
    by_cases hi : c.size ≤ i <;> simp [hb, hi]
    omega
  · have : bankCause c bk = some .bankOutOfRange := if_pos (by omega)
    simp [this, hb]

theorem transformCause_eq_none {c : Config} {bk : Bank} {n : Nat} :
    transformCause c bk n = none ↔ (bk : Nat) < c.nbank ∧ isPowerOfTwo n = true ∧ n ≤ c.size := by
  unfold transformCause
  by_cases hb : (bk : Nat) < c.nbank
  · rw [bankCause_eq_none.mpr hb]
    by_cases hn : isPowerOfTwo n = true
    · by_cases hs : c.size < n <;> simp [hb, hn, hs]
      omega
    · simp [hn]
  · have : bankCause c bk = some .bankOutOfRange := if_pos (by omega)
    simp [this, hb]

theorem rootIndexCause_eq_none {c : Config} {a : Nat} : rootIndexCause c a = none ↔ 1 ≤ a ∧ a < c.size := by
  unfold rootIndexCause
  split <;> simp <;> omega

theorem bitrevIndexCause_eq_none {c : Config} {i : Nat} : bitrevIndexCause c i = none ↔ i < c.size := by
  unfold bitrevIndexCause
  split <;> simp <;> omega

/-- R165: the check of NTT and INTT accepts exactly the powers of two. -/
theorem isPowerOfTwo_iff {n : Nat} : isPowerOfTwo n = true ↔ ∃ m, n = 2 ^ m := by
  unfold isPowerOfTwo
  rw [Bool.and_eq_true, decide_eq_true_iff, decide_eq_true_iff]
  constructor
  · rintro ⟨h0, hand⟩
    refine ⟨Nat.log2 n, ?_⟩
    have hle : 2 ^ Nat.log2 n ≤ n := Nat.log2_self_le h0
    by_contra hne
    have hlt : 2 ^ Nat.log2 n ≤ n - 1 := by omega
    have hup : n < 2 ^ (Nat.log2 n + 1) := Nat.lt_log2_self
    have htop : ∀ x, 2 ^ Nat.log2 n ≤ x → x < 2 ^ (Nat.log2 n + 1) → x.testBit (Nat.log2 n) = true := by
      intro x h1 h2
      rw [Nat.testBit_eq_decide_div_mod_eq, decide_eq_true_iff]
      have : x / 2 ^ Nat.log2 n = 1 := by
        rw [Nat.div_eq_iff (by positivity)]
        rw [pow_succ] at h2
        omega
      rw [this]
    have hbit : (n &&& (n - 1)).testBit (Nat.log2 n) = true := by
      rw [Nat.testBit_and, htop n hle hup, htop (n - 1) hlt (by omega)]
      rfl
    rw [hand] at hbit
    simp at hbit
  · rintro ⟨m, rfl⟩
    refine ⟨by positivity, ?_⟩
    rw [Nat.and_two_pow_sub_one_eq_mod, Nat.mod_self]

/-! ### The error word -/

/-- R36: the fields of ERRCODE, as numbers. -/
theorem errorWord_toNat (opc : BitVec 8) (c : Cause) :
    (errorWord opc c).toNat = opc.toNat * 65536 + (causeInfo c).toNat * 256 + (causeCode c).toNat := by
  have h : ∀ {m : Nat} (x : BitVec m) (y : BitVec 8), (x ++ y).toNat = x.toNat * 256 + y.toNat := by
    intro m x y
    rw [BitVec.toNat_append, ← Nat.shiftLeft_add_eq_or_of_lt y.isLt, Nat.shiftLeft_eq]
  rw [errorWord, h, h, h]
  simp
  omega

/-! ### What a command can do -/

/-- The state before a command retires, as the command's own effect leaves it: one of six shapes. -/
inductive Effect (i : Instr) (s : State) : State → Prop where
  | none : i = .nop → Effect i s s
  | register (rd : Reg) (v : Nat) : i.dest = some rd → i.usesCache = false →
      (s.RegsCanonical → s.BufferOk → v < s.cfg.p) → Effect i s (s.setReg rd v)
  | flags (ra rb : Reg) : i = .fcmp ra rb → Effect i s (s.setFlags (s.reg ra) (s.reg rb))
  | store (ra : Reg) (bk : Bank) (k : Nat) : i = .fst ra bk k → (bk : Nat) < s.cfg.nbank → k < s.cfg.size →
      Effect i s (s.bufWrite bk k (s.reg ra))
  | build : i = .rbuild → Effect i s s.ensureCache
  | table (rd : Reg) (v : Nat) : i.dest = some rd → i.usesCache = true → (∃ a, i = .rrd rd a ∧ 1 ≤ a ∧ a < s.cfg.size ∧
      v = rootAt s.ensureCache.root a) ∨ (∃ k, i = .brrd rd k ∧ k < s.cfg.size ∧ v = bitrevAt s.ensureCache.bitrev k) →
      Effect i s (s.ensureCache.setReg rd v)
  | transform (bk : Bank) (n : Nat) (a : List Nat) :
      (i = .ntt bk n ∨ i = .intt bk n) → (bk : Nat) < s.cfg.nbank → isPowerOfTwo n = true → n ≤ s.cfg.size →
      s.buf.readRun bk 0 n = some a →
      Effect i s { s.ensureCache with
        buf := s.buf.writeRun bk 0 (if i = .ntt bk n then forwardOf s.ensureCache a else inverseOf s.ensureCache a) }

/-- A command that has a next state either raised an error, with no other effect (R203), or retired (R23). -/
theorem exec_next_cases {i : Instr} {s t : State} (h : exec i s = .next t) :
    (∃ c, t = s.raise i.opcode.code c) ∨ ∃ u, Effect i s u ∧ t = u.retire := by
  have hp := s.cfg.p_pos
  have h1 := s.cfg.one_lt
  cases i with
  | nop => exact .inr ⟨s, .none rfl, by simpa [exec, execNop, eq_comm] using h⟩
  | fadd rd ra rb =>
    exact .inr ⟨_, .register rd _ rfl rfl fun _ _ => fadd_lt hp _ _, by simpa [exec, execFadd] using h.symm⟩
  | fsub rd ra rb =>
    exact .inr ⟨_, .register rd _ rfl rfl fun _ _ => fsub_lt hp _ _, by simpa [exec, execFsub] using h.symm⟩
  | fmul rd ra rb =>
    exact .inr ⟨_, .register rd _ rfl rfl fun _ _ => fmul_lt hp _ _, by simpa [exec, execFmul] using h.symm⟩
  | fneg rd ra =>
    exact .inr ⟨_, .register rd _ rfl rfl fun _ _ => fneg_lt hp _, by simpa [exec, execFneg] using h.symm⟩
  | finv rd ra =>
    simp only [exec, execFinv] at h
    split at h <;> injection h with h
    · exact .inl ⟨_, h.symm⟩
    · exact .inr ⟨_, .register rd _ rfl rfl fun _ _ => finv_lt h1 _, h.symm⟩
  | fdiv rd ra rb =>
    simp only [exec, execFdiv] at h
    split at h <;> injection h with h
    · exact .inl ⟨_, h.symm⟩
    · exact .inr ⟨_, .register rd _ rfl rfl fun _ _ => fmul_lt hp _ _, h.symm⟩
  | fpow rd ra e =>
    exact .inr ⟨_, .register rd _ rfl rfl fun _ _ => fpow_lt h1 _ _, by simpa [exec, execFpow] using h.symm⟩
  | fseti rd v =>
    exact .inr ⟨_, .register rd _ rfl rfl fun _ _ => reduce_lt hp _, by simpa [exec, execFseti] using h.symm⟩
  | fcmp ra rb => exact .inr ⟨_, .flags ra rb rfl, by simpa [exec, execFcmp] using h.symm⟩
  | fld rd bk k =>
    simp only [exec, execFld] at h
    split at h
    · injection h with h; exact .inl ⟨_, h.symm⟩
    · split at h
      · next v hv =>
        injection h with h
        exact .inr ⟨_, .register rd v rfl rfl fun _ hb => hb.canonical _ _ hv, h.symm⟩
      · cases h
  | fst ra bk k =>
    simp only [exec, execFst] at h
    split at h
    · injection h with h; exact .inl ⟨_, h.symm⟩
    · next hc =>
      injection h with h
      obtain ⟨hb, hk⟩ := wordCause_eq_none.mp hc
      exact .inr ⟨_, .store ra bk k rfl hb hk, h.symm⟩
  | ntt bk n =>
    simp only [exec, execNtt, Sys2Proof.Machine.transform] at h
    split at h
    · injection h with h; exact .inl ⟨_, h.symm⟩
    · next hc =>
      split at h
      · next a ha =>
        injection h with h
        obtain ⟨hb, hn, hs⟩ := transformCause_eq_none.mp hc
        have := Effect.transform (i := .ntt bk n) bk n a (.inl rfl) hb hn hs (by simpa using ha)
        exact .inr ⟨_, this, by simpa using h.symm⟩
      · cases h
  | intt bk n =>
    simp only [exec, execIntt, Sys2Proof.Machine.transform] at h
    split at h
    · injection h with h; exact .inl ⟨_, h.symm⟩
    · next hc =>
      split at h
      · next a ha =>
        injection h with h
        obtain ⟨hb, hn, hs⟩ := transformCause_eq_none.mp hc
        have := Effect.transform (i := .intt bk n) bk n a (.inr rfl) hb hn hs (by simpa using ha)
        exact .inr ⟨_, this, by simpa using h.symm⟩
      · cases h
  | rbuild => exact .inr ⟨_, .build rfl, by simpa [exec, execRbuild] using h.symm⟩
  | rrd rd a =>
    simp only [exec, execRrd] at h
    split at h <;> injection h with h
    · exact .inl ⟨_, h.symm⟩
    · next hc =>
      obtain ⟨h0, hs⟩ := rootIndexCause_eq_none.mp hc
      exact .inr ⟨_, .table rd _ rfl rfl (.inl ⟨a, rfl, h0, hs, rfl⟩), h.symm⟩
  | brrd rd k =>
    simp only [exec, execBrrd] at h
    split at h <;> injection h with h
    · exact .inl ⟨_, h.symm⟩
    · next hc =>
      exact .inr ⟨_, .table rd _ rfl rfl (.inr ⟨k, rfl, bitrevIndexCause_eq_none.mp hc, rfl⟩), h.symm⟩

/-- A command is never refused. -/
theorem exec_not_refused (i : Instr) (s : State) (r : Refusal) : exec i s ≠ .refused r := by
  cases i <;>
    simp only [exec, execNop, execFadd, execFsub, execFmul, execFneg, execFinv, execFdiv, execFpow, execFseti, execFcmp,
      execFld, execFst, execNtt, execIntt, Sys2Proof.Machine.transform, execRbuild, execRrd, execBrrd] <;>
    (repeat' split) <;> simp

end Sys2Proof.Machine
end

