-- ==== Sys2Proof/Laws/Tables.lean ====
section
/-!
SUPPORT. The entries of the built tables, and the cache after `ensureCache`.
-/

namespace Sys2Proof.Config

theorem two_le_size (c : Config) : 2 ≤ c.size :=
  (Nat.pow_le_pow_right (by omega) c.one_le_K : 2 ^ 1 ≤ 2 ^ c.K)

theorem size_le (c : Config) : c.size ≤ 2 ^ 27 :=
  Nat.pow_le_pow_right (by omega) c.K_le

/-- R40: an index of a word that exists fits in BUFADDR's field. -/
theorem index_lt (c : Config) {j : Nat} (h : j < 2 ^ c.K) : j < 2 ^ 28 := by
  have := c.size_le
  unfold size at this
  omega

/-- R142: `2^K <= p - 1`, so an entry of BITREV is a residue as it stands. -/
theorem size_lt_p (c : Config) : c.size < c.p := by
  have h1 := c.three_le
  have h2 := Nat.le_of_dvd (by omega) c.size_dvd
  omega

end Sys2Proof.Config

namespace Sys2Proof.Machine

@[simp] theorem builtRoot_length (c : Config) : (builtRoot c).length = c.size - 1 := by
  simp [builtRoot]

@[simp] theorem builtBitrev_length (c : Config) : (builtBitrev c).length = c.size := by
  simp [builtBitrev]

/-- R140: `ROOT[a]` of the built table. -/
theorem rootAt_builtRoot (c : Config) {a : Nat} (h1 : 1 ≤ a) (h2 : a < c.size) :
    rootAt (builtRoot c) a = rootEntry c a := by
  have hlt : a - 1 < c.size - 1 := by omega
  rw [rootAt, builtRoot, List.getD_eq_getElem?_getD, List.getElem?_map, List.getElem?_range hlt]
  simp [Nat.sub_add_cancel h1]

/-- R142: `BITREV[i]` of the built table. -/
theorem bitrevAt_builtBitrev (c : Config) {i : Nat} (h : i < c.size) :
    bitrevAt (builtBitrev c) i = bitReverse c.K i := by
  rw [bitrevAt, builtBitrev, List.getD_eq_getElem?_getD, List.getElem?_map, List.getElem?_range h]
  rfl

/-- R145: where the cache is as R29 says, it holds its built contents after `EnsureCache()`. -/
theorem ensureCache_tables {s : State} (h : s.CacheOk) :
    s.ensureCache.root = builtRoot s.cfg ∧ s.ensureCache.bitrev = builtBitrev s.cfg := by
  cases hc : s.cvalid
  · simp [State.ensureCache_of_not_valid hc]
  · rw [State.ensureCache_of_valid hc]
    exact h.mp hc

/-- R142: a bit-reversed number has as many bits as it had places. -/
theorem bitReverse_lt (m i : Nat) : bitReverse m i < 2 ^ m := by
  induction m generalizing i with
  | zero => simp [bitReverse]
  | succ m ih =>
    have h1 := ih (i / 2)
    have h2 : i % 2 < 2 := Nat.mod_lt _ (by omega)
    have h3 : i % 2 * 2 ^ m ≤ 1 * 2 ^ m := Nat.mul_le_mul_right _ (by omega)
    rw [bitReverse, pow_succ]
    omega

end Sys2Proof.Machine
end

