-- ==== Sys2Proof/Laws/Reversal.lean ====
section
/-!
SUPPORT. Bit reversal (R142, R143) and the roots of unity of the table (R140, R141), in the field `ZMod p`.
-/

namespace Sys2Proof.Machine

/-! ### Bit reversal -/

/-- R142: bit `j` of `rev_m(i)` is bit `m - 1 - j` of `i`. -/
theorem testBit_bitReverse (m i j : Nat) : (bitReverse m i).testBit j = (decide (j < m) && i.testBit (m - 1 - j)) := by
  induction m generalizing i j with
  | zero => simp [bitReverse]
  | succ m ih =>
    have hlt := bitReverse_lt m (i / 2)
    have hcomm : bitReverse (m + 1) i = 2 ^ m * (i % 2) + bitReverse m (i / 2) := by rw [bitReverse, Nat.mul_comm]
    rw [hcomm, Nat.testBit_two_pow_mul_add _ hlt]
    split
    · next h =>
      rw [ih, Nat.testBit_div_two]
      have : m - 1 - j + 1 = m + 1 - 1 - j := by omega
      simp [h, this, show j < m + 1 by omega]
    · next h =>
      by_cases hj : j = m
      · subst hj
        simp [Nat.testBit_zero]
      · have hbig : (i % 2).testBit (j - m) = false := by
          apply Nat.testBit_lt_two_pow
          have h1 : i % 2 < 2 := Nat.mod_lt _ (by omega)
          have h2 : 2 ^ 1 ≤ 2 ^ (j - m) := Nat.pow_le_pow_right (by omega) (by omega)
          omega
        simp [hbig, show ¬ j < m + 1 by omega]

/-- `rev_m` is an involution. -/
theorem bitReverse_bitReverse {m i : Nat} (h : i < 2 ^ m) : bitReverse m (bitReverse m i) = i := by
  apply Nat.eq_of_testBit_eq
  intro j
  rw [testBit_bitReverse, testBit_bitReverse]
  by_cases hj : j < m
  · simp [hj, show m - 1 - j < m by omega, show m - 1 - (m - 1 - j) = j by omega]
  · have : i.testBit j = false := Nat.testBit_lt_two_pow (lt_of_lt_of_le h (Nat.pow_le_pow_right (by omega) (by omega)))
    simp [hj, this]

/-- R143: `rev_m(i) = rev_K(i) >> (K - m)`. -/
theorem bitReverse_shift {K m i : Nat} (hm : m ≤ K) : bitReverse K i >>> (K - m) = bitReverse m i := by
  apply Nat.eq_of_testBit_eq
  intro j
  rw [Nat.testBit_shiftRight, testBit_bitReverse, testBit_bitReverse]
  by_cases hj : j < m
  · simp [hj, show K - m + j < K by omega, show K - 1 - (K - m + j) = m - 1 - j by omega]
  · simp [hj, show ¬ K - m + j < K by omega]

end Sys2Proof.Machine

namespace Sys2Proof.Config

/-! ### Roots of unity -/

theorem fact_prime (c : Config) : Fact (Nat.Prime c.p) := ⟨c.prime⟩

theorem pow_dvd (c : Config) {l : Nat} (h : l ≤ c.K) : 2 ^ l ∣ c.p - 1 :=
  (Nat.pow_dvd_pow 2 h).trans c.size_dvd

theorem cast_g_ne_zero (c : Config) : (c.g : ZMod c.p) ≠ 0 := by
  intro h
  have h1 := Nat.le_of_dvd c.g_primitive.1 ((ZMod.natCast_eq_zero_iff _ _).mp h)
  have h2 := c.g_primitive.2.1
  omega

theorem cast_size_ne_zero (c : Config) {l : Nat} (h : l ≤ c.K) : ((2 ^ l : Nat) : ZMod c.p) ≠ 0 := by
  intro h0
  have h1 := Nat.le_of_dvd (by positivity) ((ZMod.natCast_eq_zero_iff _ _).mp h0)
  have h2 := Nat.le_of_dvd (by have := c.three_le; omega) (c.pow_dvd h)
  have := c.three_le
  omega

/-- R160: `ω_n` for `n = 2^l`, in the field. -/
def unityRoot (c : Config) (l : Nat) : ZMod c.p :=
  (c.g : ZMod c.p) ^ ((c.p - 1) / 2 ^ l)

/-- R141: `ω_n^n = 1`. -/
theorem unityRoot_pow (c : Config) {l : Nat} (h : l ≤ c.K) : c.unityRoot l ^ 2 ^ l = 1 := by
  have := c.fact_prime
  rw [unityRoot, ← pow_mul, Nat.div_mul_cancel (c.pow_dvd h)]
  exact ZMod.pow_card_sub_one_eq_one c.cast_g_ne_zero

/-- R141: `ω_{2L}^2 = ω_L`. -/
theorem unityRoot_sq (c : Config) {l : Nat} (h : l + 1 ≤ c.K) : c.unityRoot (l + 1) ^ 2 = c.unityRoot l := by
  obtain ⟨q, hq⟩ := c.pow_dvd h
  rw [unityRoot, unityRoot, ← pow_mul, hq, Nat.mul_div_cancel_left _ (by positivity), pow_succ, Nat.mul_assoc,
    Nat.mul_div_cancel_left _ (by positivity), Nat.mul_comm]

/-- R141: `ω_n^(n/2) = -1`. -/
theorem unityRoot_half (c : Config) {l : Nat} (h : l + 1 ≤ c.K) : c.unityRoot (l + 1) ^ 2 ^ l = -1 := by
  have := c.fact_prime
  have hsq : (c.unityRoot (l + 1) ^ 2 ^ l) ^ 2 = 1 := by
    rw [← pow_mul, ← pow_succ]
    exact c.unityRoot_pow h
  have hne : c.unityRoot (l + 1) ^ 2 ^ l ≠ 1 := by
    intro h1
    obtain ⟨q, hq⟩ := c.pow_dvd h
    have h3 := c.three_le
    have hexp : (c.p - 1) / 2 ^ (l + 1) * 2 ^ l = (c.p - 1) / 2 := by
      have h2 : 2 ^ (l + 1) * q / 2 = 2 ^ l * q := by
        rw [pow_succ, Nat.mul_right_comm, Nat.mul_div_cancel _ (by omega)]
      rw [hq, Nat.mul_div_cancel_left _ (by positivity), h2, Nat.mul_comm]
    rw [unityRoot, ← pow_mul, hexp] at h1
    have h2 : (2 : Nat) ∣ c.p - 1 := by simpa using c.pow_dvd (l := 1) (by omega)
    have hprime : IsPrime 2 := isPrime_of_prime Nat.prime_two
    apply c.g_primitive.2.2 2 (by omega) hprime h2
    have h4 : ((c.g ^ ((c.p - 1) / 2) : Nat) : ZMod c.p) = ((1 : Nat) : ZMod c.p) := by exact_mod_cast h1
    have h5 := (ZMod.natCast_eq_natCast_iff _ _ _).mp h4
    rw [Nat.ModEq, Nat.mod_eq_of_lt c.one_lt] at h5
    exact h5
  have hfac : (c.unityRoot (l + 1) ^ 2 ^ l - 1) * (c.unityRoot (l + 1) ^ 2 ^ l + 1) = 0 := by
    linear_combination hsq
  rcases mul_eq_zero.mp hfac with h1 | h1
  · exact absurd (sub_eq_zero.mp h1) hne
  · exact eq_neg_of_add_eq_zero_left h1

theorem unityRoot_zero (c : Config) : c.unityRoot 0 = 1 := by
  simpa using c.unityRoot_pow (l := 0) (by omega)

theorem unityRoot_ne_zero (c : Config) (l : Nat) : c.unityRoot l ≠ 0 := by
  have := c.fact_prime
  exact pow_ne_zero _ c.cast_g_ne_zero

/-- R141: `ω_n` has order exactly `n`. -/
theorem unityRoot_pow_ne_one (c : Config) {l d : Nat} (h : l ≤ c.K) (h0 : 0 < d) (hd : d < 2 ^ l) :
    c.unityRoot l ^ d ≠ 1 := by
  have := c.fact_prime
  cases l with
  | zero => simp at hd; omega
  | succ l =>
    have hnot : ¬ c.unityRoot (l + 1) ^ 2 ^ l = 1 := by
      rw [c.unityRoot_half h]
      intro h1
      have h2 : ((2 ^ 1 : Nat) : ZMod c.p) = 0 := by
        push_cast
        linear_combination -h1
      exact c.cast_size_ne_zero (l := 1) (by omega) h2
    have hord := orderOf_eq_prime_pow hnot (c.unityRoot_pow h)
    intro h1
    have := Nat.le_of_dvd h0 (orderOf_dvd_of_pow_eq_one h1)
    omega

/-- The powers of `ω_n^d` sum to `n` for `d = 0` and to 0 for every other `d` below `n`. -/
theorem sum_unityRoot_pow (c : Config) {l d : Nat} (h : l ≤ c.K) (hd : d < 2 ^ l) :
    ∑ k ∈ Finset.range (2 ^ l), c.unityRoot l ^ (d * k) = if d = 0 then ((2 ^ l : Nat) : ZMod c.p) else 0 := by
  have := c.fact_prime
  split
  · next h0 => simp [h0]
  · next h0 =>
    simp only [pow_mul]
    rw [geom_sum_eq (c.unityRoot_pow_ne_one h (by omega) hd), ← pow_mul, Nat.mul_comm, pow_mul, c.unityRoot_pow h]
    simp

/-- A power of `ω_n` looks at its exponent modulo `n` alone. -/
theorem unityRoot_pow_mod (c : Config) {l : Nat} (h : l ≤ c.K) (x : Nat) :
    c.unityRoot l ^ (x % 2 ^ l) = c.unityRoot l ^ x := by
  conv_rhs => rw [← Nat.div_add_mod x (2 ^ l), pow_add, pow_mul, c.unityRoot_pow h, one_pow, one_mul]

/-- The orthogonality of the powers of `ω_n`. -/
theorem sum_unityRoot_mul_inv (c : Config) {l i k : Nat} (h : l ≤ c.K) (hi : i < 2 ^ l) (hk : k < 2 ^ l) :
    ∑ j ∈ Finset.range (2 ^ l), c.unityRoot l ^ (i * j) * (c.unityRoot l)⁻¹ ^ (j * k) =
      if i = k then ((2 ^ l : Nat) : ZMod c.p) else 0 := by
  have := c.fact_prime
  have hzero : i = k ↔ (i + (2 ^ l - k)) % 2 ^ l = 0 := by
    constructor
    · rintro rfl
      rw [Nat.add_sub_cancel' hi.le, Nat.mod_self]
    · intro h0
      rcases Nat.lt_trichotomy i k with h1 | h1 | h1
      · rw [Nat.mod_eq_of_lt (by omega)] at h0
        omega
      · exact h1
      · rw [show i + (2 ^ l - k) = i - k + 2 ^ l by omega, Nat.add_mod_right, Nat.mod_eq_of_lt (by omega)] at h0
        omega
  have hexp : c.unityRoot l ^ ((i + (2 ^ l - k)) % 2 ^ l) = c.unityRoot l ^ i * (c.unityRoot l)⁻¹ ^ k := by
    rw [c.unityRoot_pow_mod h, pow_add, inv_pow]
    congr 1
    refine eq_inv_of_mul_eq_one_left ?_
    rw [← pow_add, Nat.sub_add_cancel hk.le]
    exact c.unityRoot_pow h
  simp only [hzero]
  rw [← c.sum_unityRoot_pow h (Nat.mod_lt _ (by positivity))]
  refine Finset.sum_congr rfl fun j _ => ?_
  rw [pow_mul _ ((i + (2 ^ l - k)) % 2 ^ l), hexp, mul_pow, ← pow_mul, ← pow_mul, Nat.mul_comm k j]

end Sys2Proof.Config

namespace Sys2Proof.Machine

theorem cast_principalRoot (c : Config) : ((principalRoot c : Nat) : ZMod c.p) = c.unityRoot c.K := by
  rw [principalRoot, cast_fpow c.one_lt, Config.unityRoot, Config.size]

/-- R141: `ω_L` as `g^((p-1)/L)`. -/
theorem cast_rootOfUnity (c : Config) {l : Nat} (h : l ≤ c.K) :
    ((rootOfUnity c (2 ^ l) : Nat) : ZMod c.p) = c.unityRoot l := by
  obtain ⟨q, hq⟩ := c.size_dvd
  rw [Config.size] at hq
  have hsplit : 2 ^ c.K = 2 ^ l * 2 ^ (c.K - l) := by rw [← pow_add, Nat.add_sub_cancel' h]
  rw [rootOfUnity, cast_fpow c.one_lt, cast_principalRoot, Config.unityRoot, Config.unityRoot, ← pow_mul, Config.size, hq,
    Nat.mul_div_cancel_left _ (by positivity), hsplit, Nat.mul_div_cancel_left _ (by positivity), Nat.mul_assoc,
    Nat.mul_div_cancel_left _ (by positivity), Nat.mul_comm]

theorem rowLength_eq {l k : Nat} (hk : k < 2 ^ l) : rowLength (2 ^ l + k) = 2 ^ (l + 1) := by
  have h : Nat.log2 (2 ^ l + k) = l := by
    rw [Nat.log2_eq_iff (by positivity)]
    rw [pow_succ]
    omega
  rw [rowLength, h]

/-- R140, R141: `ROOT[L/2 + k]` of the built table is `ω_L^k`, for `L = 2^(l+1)`. -/
theorem cast_rootAt (c : Config) {l k : Nat} (hl : l < c.K) (hk : k < 2 ^ l) :
    ((rootAt (builtRoot c) (2 ^ l + k) : Nat) : ZMod c.p) = c.unityRoot (l + 1) ^ k := by
  have hsize : 2 ^ l + k < c.size := by
    have : 2 ^ (l + 1) ≤ 2 ^ c.K := Nat.pow_le_pow_right (by omega) hl
    rw [pow_succ] at this
    rw [Config.size]
    omega
  have hpos : 0 < 2 ^ l := by positivity
  have hhalf : 2 ^ l + k - 2 ^ (l + 1) / 2 = k := by rw [pow_succ]; omega
  rw [rootAt_builtRoot c (by omega) hsize, rootEntry, rowLength_eq hk, cast_fpow c.one_lt, cast_rootOfUnity c hl, hhalf]

end Sys2Proof.Machine
end

