-- ==== Sys2Proof/Laws/Transform.lean ====
section
/-!
SUPPORT. The transform network (R161 to R164): its lengths and ranges, and what it computes in the field `ZMod p`, by induction
on the layers.
-/

namespace Sys2Proof.Machine

/-! ### Words, lengths, ranges -/

theorem wordAt_map_range {n : Nat} (f : Nat → Nat) {t : Nat} (h : t < n) : wordAt ((List.range n).map f) t = f t := by
  rw [wordAt, List.getD_eq_getElem?_getD, List.getElem?_map, List.getElem?_range h]
  rfl

theorem wordAt_eq {a : List Nat} {t : Nat} (h : t < a.length) : a[t]? = some (wordAt a t) := by
  simp [wordAt, h]

theorem wordAt_lt {p : Nat} (hp : 0 < p) {a : List Nat} (h : ∀ x ∈ a, x < p) (i : Nat) : wordAt a i < p := by
  rw [wordAt, List.getD_eq_getElem?_getD]
  cases hi : a[i]? with
  | none => exact hp
  | some v => exact h v (List.mem_of_getElem? hi)

@[simp] theorem reverseTail_length (a : List Nat) : (reverseTail a).length = a.length := by
  simp [reverseTail]

@[simp] theorem permute_length (b : List Nat) (K m : Nat) (a : List Nat) : (permute b K m a).length = a.length := by
  simp [permute]

@[simp] theorem network_length (p : Nat) (root : List Nat) (m : Nat) (a : List Nat) :
    (network p root m a).length = a.length := by
  induction m with
  | zero => rfl
  | succ m ih => simp [network, layer, ih]

@[simp] theorem forwardSteps_length (p K : Nat) (root bitrev a : List Nat) :
    (forwardSteps p K root bitrev a).length = a.length := by
  simp [forwardSteps]

@[simp] theorem inverseSteps_length (p K : Nat) (root bitrev a : List Nat) :
    (inverseSteps p K root bitrev a).length = a.length := by
  simp [inverseSteps, scale]

/-- R165: a transform of residues answers residues. -/
theorem forwardSteps_lt {p : Nat} (hp : 0 < p) (K : Nat) (root bitrev : List Nat) {a : List Nat} (h : ∀ x ∈ a, x < p) :
    ∀ x ∈ forwardSteps p K root bitrev a, x < p := by
  have hperm : ∀ x ∈ permute bitrev K (Nat.log2 a.length) a, x < p := by
    intro x hx
    obtain ⟨i, -, rfl⟩ := List.mem_map.mp hx
    exact wordAt_lt hp h _
  have hnet : ∀ m, ∀ x ∈ network p root m (permute bitrev K (Nat.log2 a.length) a), x < p := by
    intro m
    cases m with
    | zero => exact hperm
    | succ m =>
      intro x hx
      obtain ⟨i, -, rfl⟩ := List.mem_map.mp hx
      simp only [butterfly]
      split
      · exact fadd_lt hp _ _
      · exact fsub_lt hp _ _
  exact hnet _

/-- R166: the inverse transform answers residues, for its last step is a product. -/
theorem inverseSteps_lt {p : Nat} (hp : 0 < p) (K : Nat) (root bitrev a : List Nat) :
    ∀ x ∈ inverseSteps p K root bitrev a, x < p := by
  intro x hx
  obtain ⟨y, -, rfl⟩ := List.mem_map.mp hx
  exact fmul_lt hp _ _

/-! ### The network -/

theorem sum_range_double {R : Type} [AddCommMonoid R] (f : Nat → R) (n : Nat) :
    ∑ j ∈ Finset.range (n * 2), f j = ∑ j ∈ Finset.range n, f (2 * j) + ∑ j ∈ Finset.range n, f (2 * j + 1) := by
  induction n with
  | zero => simp
  | succ n ih =>
    rw [Nat.succ_mul, Finset.sum_range_succ, Finset.sum_range_succ, ih, Finset.sum_range_succ, Finset.sum_range_succ,
      Nat.mul_comm n 2]
    abel

/-- R163: after `m` layers, position `q * 2^m + r` holds the transform of size `2^m` of its block, read in bit-reversed order,
at `r`. -/
theorem cast_network (c : Config) (b : List Nat) {M : Nat} (hlen : b.length = 2 ^ M) :
    ∀ m, m ≤ c.K → m ≤ M → ∀ q r, r < 2 ^ m → q * 2 ^ m + r < 2 ^ M →
      ((wordAt (network c.p (builtRoot c) m b) (q * 2 ^ m + r) : Nat) : ZMod c.p) =
        ∑ j ∈ Finset.range (2 ^ m), (wordAt b (q * 2 ^ m + bitReverse m j) : ZMod c.p) * c.unityRoot m ^ (j * r) := by
  intro m
  induction m with
  | zero =>
    intro _ _ q r hr _
    have : r = 0 := by simpa using hr
    subst this
    simp [network, bitReverse]
  | succ m ih =>
    intro hK hM q r hr ht
    have hpos : 0 < 2 ^ m := by positivity
    have hpow : 2 ^ (m + 1) = 2 ^ m * 2 := pow_succ 2 m
    -- the sum over the even and the odd inputs of the block
    have hsum : ∀ x : Nat,
        ∑ j ∈ Finset.range (2 ^ (m + 1)),
          (wordAt b (q * 2 ^ (m + 1) + bitReverse (m + 1) j) : ZMod c.p) * c.unityRoot (m + 1) ^ (j * x) =
        ∑ j ∈ Finset.range (2 ^ m), (wordAt b (2 * q * 2 ^ m + bitReverse m j) : ZMod c.p) * c.unityRoot m ^ (j * x) +
        (∑ j ∈ Finset.range (2 ^ m), (wordAt b ((2 * q + 1) * 2 ^ m + bitReverse m j) : ZMod c.p) * c.unityRoot m ^ (j * x)) *
          c.unityRoot (m + 1) ^ x := by
      intro x
      rw [hpow, sum_range_double, Finset.sum_mul]
      congr 1 <;> refine Finset.sum_congr rfl fun j _ => ?_
      · have haddr : q * (2 ^ m * 2) + bitReverse (m + 1) (2 * j) = 2 * q * 2 ^ m + bitReverse m j := by
          rw [bitReverse, Nat.mul_mod_right, Nat.mul_div_cancel_left _ (by omega)]
          ring
        rw [haddr, ← c.unityRoot_sq hK, ← pow_mul, Nat.mul_assoc 2 j x]
      · have haddr : q * (2 ^ m * 2) + bitReverse (m + 1) (2 * j + 1) = (2 * q + 1) * 2 ^ m + bitReverse m j := by
          rw [bitReverse, show (2 * j + 1) % 2 = 1 by omega, show (2 * j + 1) / 2 = j by omega]
          ring
        rw [haddr, ← c.unityRoot_sq hK, ← pow_mul, mul_assoc, ← pow_add]
        congr 2
        ring
    have hend : q * 2 ^ (m + 1) + 2 ^ (m + 1) ≤ 2 ^ M := by
      obtain ⟨d, hd⟩ := Nat.pow_dvd_pow 2 hM
      rw [hd] at ht ⊢
      have : q < d := by
        by_contra hge
        have := Nat.mul_le_mul_left (2 ^ (m + 1)) (Nat.le_of_not_lt hge)
        rw [Nat.mul_comm q] at ht
        omega
      have := Nat.mul_le_mul_left (2 ^ (m + 1)) this
      rw [Nat.mul_succ] at this
      rw [Nat.mul_comm q]
      exact this
    have hmod : (q * 2 ^ (m + 1) + r) % 2 ^ (m + 1) = r := by
      rw [Nat.mul_comm, Nat.mul_add_mod, Nat.mod_eq_of_lt hr]
    have hlow : ∀ x, q * 2 ^ (m + 1) + x = 2 * q * 2 ^ m + x := fun x => by rw [hpow]; ring
    have hhigh : ∀ x, 2 * q * 2 ^ m + x + 2 ^ m = (2 * q + 1) * 2 ^ m + x := fun x => by ring
    have hrange : q * 2 ^ (m + 1) + r < (network c.p (builtRoot c) m b).length := by rw [network_length, hlen]; exact ht
    rw [network, layer, wordAt_map_range _ hrange, butterfly, Nat.add_sub_cancel, hmod, hsum]
    split
    · next hrh =>
      have hu := ih (by omega) (by omega) (2 * q) r hrh (by rw [← hlow]; exact ht)
      have hv := ih (by omega) (by omega) (2 * q + 1) r hrh (by rw [← hhigh, ← hlow]; omega)
      rw [cast_fadd, cast_fmul, cast_rootAt c (by omega) hrh, hlow, hhigh, hu, hv]
    · next hrh =>
      obtain ⟨x, rfl⟩ : ∃ x, r = 2 ^ m + x := ⟨r - 2 ^ m, by omega⟩
      have hx : x < 2 ^ m := by omega
      have hsub : q * 2 ^ (m + 1) + (2 ^ m + x) - 2 ^ m = 2 * q * 2 ^ m + x := by rw [hlow]; omega
      have htop : q * 2 ^ (m + 1) + (2 ^ m + x) = (2 * q + 1) * 2 ^ m + x := by rw [hlow, ← hhigh]; omega
      have hu := ih (by omega) (by omega) (2 * q) x hx (by rw [← hlow]; omega)
      have hv := ih (by omega) (by omega) (2 * q + 1) x hx (by rw [← htop]; omega)
      have hper : ∀ j, c.unityRoot m ^ (j * (2 ^ m + x)) = c.unityRoot m ^ (j * x) := fun j => by
        rw [Nat.mul_add, pow_add, Nat.mul_comm j (2 ^ m), pow_mul, c.unityRoot_pow (by omega), one_pow, one_mul]
      simp only [hper]
      rw [cast_fsub c.p_pos, cast_fmul, Nat.add_sub_cancel_left, cast_rootAt c (by omega) hx, hsub, htop, hu, hv, pow_add,
        c.unityRoot_half hK]
      ring

/-- R162: the permutation brings the word from `rev_m(i)` to `i`. -/
theorem wordAt_permute (c : Config) {a : List Nat} {m i : Nat} (hm : m ≤ c.K) (hlen : a.length = 2 ^ m) (hi : i < 2 ^ m) :
    wordAt (permute (builtBitrev c) c.K m a) i = wordAt a (bitReverse m i) := by
  have hsize : i < c.size := lt_of_lt_of_le hi (Nat.pow_le_pow_right (by omega) hm)
  rw [permute, wordAt_map_range _ (by omega), bitrevAt_builtBitrev c hsize, bitReverse_shift hm]

/-- R160, R165: the forward steps compute the forward transform. -/
theorem cast_forwardSteps (c : Config) {a : List Nat} {m k : Nat} (hm : m ≤ c.K) (hlen : a.length = 2 ^ m) (hk : k < 2 ^ m) :
    ((wordAt (forwardSteps c.p c.K (builtRoot c) (builtBitrev c) a) k : Nat) : ZMod c.p) =
      ∑ j ∈ Finset.range (2 ^ m), (wordAt a j : ZMod c.p) * c.unityRoot m ^ (j * k) := by
  have h := cast_network c (permute (builtBitrev c) c.K m a) (M := m) (by simp [hlen]) m hm le_rfl 0 k hk (by omega)
  simp only [Nat.zero_mul, Nat.zero_add] at h
  rw [forwardSteps, hlen, Nat.log2_two_pow, h]
  refine Finset.sum_congr rfl fun j hj => ?_
  have hj := Finset.mem_range.mp hj
  rw [wordAt_permute c hm hlen (bitReverse_lt m j), bitReverse_bitReverse hj]

/-- R160, R166: the inverse steps compute the inverse transform. -/
theorem cast_inverseSteps (c : Config) {a : List Nat} {m k : Nat} (hm : m ≤ c.K) (hlen : a.length = 2 ^ m) (hk : k < 2 ^ m) :
    ((wordAt (inverseSteps c.p c.K (builtRoot c) (builtBitrev c) a) k : Nat) : ZMod c.p) =
      ((2 ^ m : Nat) : ZMod c.p)⁻¹ *
        ∑ j ∈ Finset.range (2 ^ m), (wordAt a j : ZMod c.p) * (c.unityRoot m)⁻¹ ^ (j * k) := by
  have := c.fact_prime
  have hn0 := c.cast_size_ne_zero hm
  have hpos : 0 < 2 ^ m := by positivity
  have hw : ∀ (b : List Nat) (y : Nat), k < b.length →
      wordAt (b.map fun x => fmul c.p x y) k = fmul c.p (wordAt b k) y := fun b y hb => by
    simp [wordAt, hb]
  have hmod : ((2 ^ m % c.p : Nat) : ZMod c.p) = ((2 ^ m : Nat) : ZMod c.p) := by rw [ZMod.natCast_mod]
  rw [inverseSteps, scale, hw _ _ (by simp [hlen, hk]), cast_fmul, cast_forwardSteps c hm (by simp [hlen]) hk, hlen,
    cast_finv c (by rw [hmod]; exact hn0), hmod, mul_comm]
  congr 1
  -- the reversal of positions 1 .. n-1 turns the powers of `ω` into those of its inverse
  have hW0 := c.unityRoot_ne_zero m
  have hpow := c.unityRoot_pow hm
  obtain ⟨n, hn⟩ : ∃ n, 2 ^ m = n + 1 := ⟨2 ^ m - 1, by omega⟩
  rw [hn, Finset.sum_range_succ', Finset.sum_range_succ' (fun j => (wordAt a j : ZMod c.p) * _)]
  congr 1
  · rw [← Finset.sum_range_reflect]
    refine Finset.sum_congr rfl fun j hj => ?_
    have hj := Finset.mem_range.mp hj
    have hidx : wordAt (reverseTail a) (n - 1 - j + 1) = wordAt a (j + 1) := by
      rw [reverseTail, wordAt_map_range _ (by omega), if_neg (by omega)]
      congr 1
      omega
    rw [hidx]
    congr 1
    rw [pow_mul, pow_mul]
    congr 1
    rw [inv_pow]
    refine eq_inv_of_mul_eq_one_left ?_
    rw [← pow_add, show n - 1 - j + 1 + (j + 1) = n + 1 by omega, ← hn]
    exact hpow
  · have hidx : wordAt (reverseTail a) 0 = wordAt a 0 := by
      rw [reverseTail, wordAt_map_range _ (by omega), if_pos rfl]
    simp [hidx]

end Sys2Proof.Machine
end

