-- ==== Sys2Proof/Laws/Effects.lean ====
section
/-!
SUPPORT. What the effect of a command (`Effect`, six shapes) does to each part of the state.
-/

namespace Sys2Proof.Machine

@[simp] theorem forwardOf_length (s : State) (a : List Nat) : (forwardOf s a).length = a.length := by
  simp [forwardOf]

@[simp] theorem inverseOf_length (s : State) (a : List Nat) : (inverseOf s a).length = a.length := by
  simp [inverseOf]

/-- R23, R25, R45: no command's effect writes ERRCODE, the control state, DROP, CMDCNT or the host's registers. -/
theorem Effect.same {i : Instr} {s u : State} (h : Effect i s u) :
    u.cfg = s.cfg ∧ u.errcode = s.errcode ∧ u.cs = s.cs ∧ u.drop = s.drop ∧ u.cmdcnt = s.cmdcnt ∧ u.cmdLo = s.cmdLo ∧
      u.bufaddr = s.bufaddr ∧ u.inReset = s.inReset ∧ u.turns = s.turns ∧ u.busRead = s.busRead ∧ u.epoch = s.epoch := by
  cases h <;> simp

/-- R26: a store of a residue to a word that exists keeps the buffer's invariant. -/
theorem State.BufferOk.bufWrite {s : State} (h : s.BufferOk) {b i v : Nat} (hb : b < s.cfg.nbank) (hi : i < s.cfg.size)
    (hv : v < s.cfg.p) : (s.bufWrite b i v).BufferOk := by
  refine ⟨Memory.wf_write h.sorted _ _, fun k x hx => ?_, fun k x hx => ?_⟩ <;>
    simp only [State.bufWrite, Memory.read_write] at hx <;> split at hx
  · injection hx with hx
    exact hx ▸ hv
  · exact h.canonical k x hx
  · exact ⟨b, i, hb, hi, ‹_›⟩
  · exact h.inBank k x hx

/-- R26, R165: a run of residues written to the first words of a bank keeps the buffer's invariant. -/
theorem State.BufferOk.writeRun {s : State} (h : s.BufferOk) {b : Nat} {a : List Nat} (hb : b < s.cfg.nbank)
    (hn : a.length ≤ s.cfg.size) (ha : ∀ x ∈ a, x < s.cfg.p) {t : State} (hc : t.cfg = s.cfg)
    (ht : t.buf = s.buf.writeRun b 0 a) : t.BufferOk := by
  refine ⟨ht ▸ Memory.wf_writeRun h.sorted _ _ _, fun k v hv => ?_, fun k v hv => ?_⟩ <;> rw [hc] <;>
    rw [ht, Memory.read_writeRun] at hv <;> split at hv
  · exact ha _ (List.mem_of_getElem? hv)
  · exact h.canonical _ _ hv
  · next hr =>
    refine ⟨b, k - wordKey b 0, hb, by omega, ?_⟩
    have := wordKey_add b 0 (k - wordKey b 0)
    rw [Nat.zero_add] at this
    omega
  · exact h.inBank _ _ hv

/-- R22: the field registers hold residues after a command. -/
theorem Effect.regs {i : Instr} {s u : State} (h : Effect i s u) (hr : s.RegsCanonical) (hb : s.BufferOk) (hc : s.CacheOk) :
    u.RegsCanonical := by
  obtain ⟨hroot, hrev⟩ := ensureCache_tables hc
  intro r
  cases h with
  | none _ => exact hr r
  | register rd v _ _ hv =>
    rw [State.reg_setReg]
    split
    · exact hv hr hb
    · exact hr r
  | flags => exact hr r
  | store => exact hr r
  | build => simpa using hr r
  | table rd v _ _ hv =>
    rw [State.reg_setReg, State.setReg_cfg, State.ensureCache_cfg]
    split
    · rcases hv with ⟨a, rfl, h1, h2, rfl⟩ | ⟨k, rfl, hk, rfl⟩
      · rw [hroot, rootAt_builtRoot _ h1 h2]
        exact fpow_lt s.cfg.one_lt _ _
      · rw [hrev, bitrevAt_builtBitrev _ hk]
        exact lt_trans (bitReverse_lt _ _) s.cfg.size_lt_p
    · simpa using hr r
  | transform =>
    have := hr r
    simpa [State.reg] using this

/-- R26: the buffer's invariant holds after a command. -/
theorem Effect.buffer {i : Instr} {s u : State} (h : Effect i s u) (hr : s.RegsCanonical) (hb : s.BufferOk) : u.BufferOk := by
  cases h with
  | none _ => exact hb
  | register => exact ⟨hb.1, hb.2, hb.3⟩
  | flags => exact ⟨hb.1, hb.2, hb.3⟩
  | store ra bk k _ hbk hk => exact hb.bufWrite hbk hk (hr ra)
  | build => exact ⟨by simpa using hb.1, by simpa using hb.2, by simpa using hb.3⟩
  | table => exact ⟨by simpa using hb.1, by simpa using hb.2, by simpa using hb.3⟩
  | transform bk n a _ hbk _ hn hrun =>
    obtain ⟨hlen, hread⟩ := Memory.readRun_eq_some.mp hrun
    have ha : ∀ x ∈ a, x < s.cfg.p := by
      intro x hx
      obtain ⟨j, hj⟩ := List.mem_iff_getElem?.mp hx
      have hjl := (List.getElem?_eq_some_iff.mp hj).1
      exact hb.canonical _ _ ((hread j (by omega)).trans hj)
    refine hb.writeRun hbk (a := if i = .ntt bk n then forwardOf s.ensureCache a else inverseOf s.ensureCache a) ?_ ?_
      (by simp) rfl
    · split <;> simp [hlen, hn]
    · split
      · simpa [forwardOf] using forwardSteps_lt s.cfg.p_pos _ _ _ ha
      · simpa [inverseOf] using inverseSteps_lt s.cfg.p_pos _ _ _ a

/-- R29, R145: CVALID and the tables agree after a command. -/
theorem Effect.cache {i : Instr} {s u : State} (h : Effect i s u) (hc : s.CacheOk) : u.CacheOk := by
  have ht := ensureCache_tables hc
  cases h with
  | none _ => exact hc
  | register => exact hc
  | flags => exact hc
  | store => exact hc
  | build => simp [State.CacheOk, ht]
  | table => simp [State.CacheOk, ht]
  | transform => simp [State.CacheOk, ht]

end Sys2Proof.Machine
end

