-- ==== Sys2Proof/Laws/Fields.lean ====
section
/-!
SUPPORT. The fields of a command word as numbers, and the fields of an encoded word (R71).
-/

namespace Sys2Proof.Laws

/-! ### The fields of a word of format C (R71) -/

theorem toNat_extract (w : Word64) (i l : Nat) : (w.extractLsb' i l).toNat = w.toNat / 2 ^ i % 2 ^ l := by
  rw [BitVec.extractLsb'_toNat, Nat.shiftRight_eq_div_pow]

theorem opcField_toNat (w : Word64) : (opcField w).toNat = w.toNat % 256 := by
  rw [opcField, toNat_extract]
  omega

theorem rdField_val (w : Word64) : (rdField w : Nat) = w.toNat / 256 % 8 := toNat_extract w 8 3

theorem raField_val (w : Word64) : (raField w : Nat) = w.toNat / 4096 % 8 := toNat_extract w 12 3

theorem rbField_val (w : Word64) : (rbField w : Nat) = w.toNat / 65536 % 8 := toNat_extract w 16 3

theorem bkField_val (w : Word64) : (bkField w : Nat) = w.toNat / 1048576 % 16 := toNat_extract w 20 4

theorem immField_eq (w : Word64) : immField w = w.toNat / 4294967296 := by
  have := w.isLt
  rw [immField, toNat_extract]
  omega

section
variable (op : Opcode) (rd ra rb : Reg) (bk : Bank) (imm : Nat)

theorem toNat_opcode_lt : op.code.toNat < 256 := op.code.isLt

theorem toNat_formatC : (formatC op rd ra rb bk imm).toNat =
    (imm % 4294967296) * 4294967296 + bk * 1048576 + rb * 65536 + ra * 4096 + rd * 256 + op.code.toNat := by
  have := toNat_opcode_lt op
  rw [formatC, BitVec.toNat_ofNat]
  omega

theorem opcField_formatC : opcField (formatC op rd ra rb bk imm) = op.code := by
  have := toNat_opcode_lt op
  apply BitVec.eq_of_toNat_eq
  rw [opcField_toNat, toNat_formatC]
  omega

theorem rdField_formatC : rdField (formatC op rd ra rb bk imm) = rd := by
  have := toNat_opcode_lt op
  apply Fin.ext
  rw [rdField_val, toNat_formatC]
  omega

theorem raField_formatC : raField (formatC op rd ra rb bk imm) = ra := by
  have := toNat_opcode_lt op
  apply Fin.ext
  rw [raField_val, toNat_formatC]
  omega

theorem rbField_formatC : rbField (formatC op rd ra rb bk imm) = rb := by
  have := toNat_opcode_lt op
  apply Fin.ext
  rw [rbField_val, toNat_formatC]
  omega

theorem bkField_formatC : bkField (formatC op rd ra rb bk imm) = bk := by
  have := toNat_opcode_lt op
  apply Fin.ext
  rw [bkField_val, toNat_formatC]
  omega

theorem immField_formatC (h : imm < 4294967296) : immField (formatC op rd ra rb bk imm) = imm := by
  have := toNat_opcode_lt op
  rw [immField_eq, toNat_formatC]
  omega

end

end Sys2Proof.Laws
end

