-- ==== Sys2Proof/Laws/Encoding.lean ====
section
/-!
SUPPORT. What the masks of the opcode table say (R74, R75): a word of an opcode passes its row's mask and match exactly when
its reserved bits and the fields that the opcode does not use are 0.
-/

namespace Sys2Proof.Laws

/-! ### Bits of a word -/

theorem word_eq_iff (x y : Word64) : x = y ↔ ∀ i < 64, x.getLsbD i = y.getLsbD i :=
  ⟨fun h _ _ => h ▸ rfl, fun h => BitVec.eq_of_getLsbD_eq h⟩

theorem extract_eq_zero_iff (w : Word64) (first n : Nat) :
    w.extractLsb' first n = 0 ↔ ∀ i, first ≤ i → i < first + n → w.getLsbD i = false := by
  constructor
  · intro h i h1 h2
    have := congrArg (fun x => x.getLsbD (i - first)) h
    simpa [show i - first < n by omega, Nat.add_sub_cancel' h1] using this
  · intro h
    apply BitVec.eq_of_getLsbD_eq
    intro j hj
    simpa [hj] using h (first + j) (by omega) (by omega)

theorem rdField_eq_zero_iff (w : Word64) : rdField w = 0 ↔ w.extractLsb' 8 3 = 0 :=
  ⟨fun h => BitVec.eq_of_toFin_eq h, fun h => by rw [rdField, h]; rfl⟩

theorem raField_eq_zero_iff (w : Word64) : raField w = 0 ↔ w.extractLsb' 12 3 = 0 :=
  ⟨fun h => BitVec.eq_of_toFin_eq h, fun h => by rw [raField, h]; rfl⟩

theorem rbField_eq_zero_iff (w : Word64) : rbField w = 0 ↔ w.extractLsb' 16 3 = 0 :=
  ⟨fun h => BitVec.eq_of_toFin_eq h, fun h => by rw [rbField, h]; rfl⟩

theorem bkField_eq_zero_iff (w : Word64) : bkField w = 0 ↔ w.extractLsb' 20 4 = 0 :=
  ⟨fun h => BitVec.eq_of_toFin_eq h, fun h => by rw [bkField, h]; rfl⟩

theorem immField_eq_zero_iff (w : Word64) : immField w = 0 ↔ w.extractLsb' 32 32 = 0 :=
  ⟨fun h => BitVec.eq_of_toNat_eq h, fun h => by rw [immField, h]; rfl⟩

theorem opcField_bits {w : Word64} {c : BitVec 8} (h : opcField w = c) {i : Nat} (hi : i < 8) :
    w.getLsbD i = c.getLsbD i := by
  have := congrArg (fun x => x.getLsbD i) h
  simpa [opcField, hi] using this

/-! ### The masks -/

/-- R75: the bits of a row's mask are the opcode, the reserved bits and the unused fields. -/
def maskBit (op : Opcode) (i : Nat) : Bool :=
  decide (i < 8) || decide (i = 11) || decide (i = 15) || decide (i = 19) || decide (24 ≤ i ∧ i < 32) ||
  (!op.usesRd && decide (8 ≤ i ∧ i < 11)) || (!op.usesRa && decide (12 ≤ i ∧ i < 15)) ||
  (!op.usesRb && decide (16 ≤ i ∧ i < 19)) || (!op.usesBk && decide (20 ≤ i ∧ i < 24)) ||
  (!op.usesImm && decide (32 ≤ i ∧ i < 64))

theorem mask_getLsbD (op : Opcode) : ∀ i < 64, op.mask.getLsbD i = maskBit op i := by
  cases op <;> decide +kernel

theorem pattern_getLsbD (op : Opcode) : ∀ i < 64, op.pattern.getLsbD i = (decide (i < 8) && op.code.getLsbD i) := by
  cases op <;> decide +kernel

/-- R74, R78: the mask test accepts exactly the words whose reserved bits and unused fields are 0. -/
theorem mask_test_iff {op : Opcode} {w : Word64} (h : opcField w = op.code) :
    w &&& op.mask = op.pattern ↔ ¬ FieldsIllegal op w := by
  have hbits : w &&& op.mask = op.pattern ↔ ∀ i, 8 ≤ i → i < 64 → maskBit op i = true → w.getLsbD i = false := by
    rw [word_eq_iff]
    constructor
    · intro hw i h8 h64 hm
      have := hw i h64
      rw [BitVec.getLsbD_and, mask_getLsbD op i h64, pattern_getLsbD op i h64, hm, decide_eq_false (by omega)] at this
      simpa using this
    · intro hw i h64
      rw [BitVec.getLsbD_and, mask_getLsbD op i h64, pattern_getLsbD op i h64]
      by_cases h8 : i < 8
      · have : maskBit op i = true := by simp [maskBit, h8]
        rw [this, opcField_bits h h8]
        simp [h8]
      · cases hm : maskBit op i
        · simp [h8]
        · simp [hw i (by omega) h64 hm, h8]
  rw [hbits, FieldsIllegal]
  simp only [not_or, not_and, not_not, ne_eq, Bool.not_eq_true, rdField_eq_zero_iff, raField_eq_zero_iff,
    rbField_eq_zero_iff, bkField_eq_zero_iff, immField_eq_zero_iff, extract_eq_zero_iff]
  constructor
  · intro hw
    refine ⟨?_, ?_, ?_, ?_, ?_, ?_, ?_, ?_, ?_⟩
    · exact hw 11 (by omega) (by omega) (by simp [maskBit])
    · exact hw 15 (by omega) (by omega) (by simp [maskBit])
    · exact hw 19 (by omega) (by omega) (by simp [maskBit])
    · exact fun i h1 h2 => hw i (by omega) (by omega) (by simp [maskBit]; omega)
    · exact fun hu i h1 h2 => hw i (by omega) (by omega) (by simp [maskBit, hu]; omega)
    · exact fun hu i h1 h2 => hw i (by omega) (by omega) (by simp [maskBit, hu]; omega)
    · exact fun hu i h1 h2 => hw i (by omega) (by omega) (by simp [maskBit, hu]; omega)
    · exact fun hu i h1 h2 => hw i (by omega) (by omega) (by simp [maskBit, hu]; omega)
    · exact fun hu i h1 h2 => hw i (by omega) (by omega) (by simp [maskBit, hu]; omega)
  · rintro ⟨h11, h15, h19, hres, hrd, hra, hrb, hbk, himm⟩ i h8 h64 hm
    simp only [maskBit, Bool.or_eq_true, Bool.and_eq_true, Bool.not_eq_true', decide_eq_true_iff] at hm
    rcases hm with ((((((((hm | rfl) | rfl) | rfl) | hm) | ⟨hu, hm⟩) | ⟨hu, hm⟩) | ⟨hu, hm⟩) | ⟨hu, hm⟩) | ⟨hu, hm⟩
    · omega
    · exact h11
    · exact h15
    · exact h19
    · exact hres i hm.1 hm.2
    · exact hrd hu i hm.1 hm.2
    · exact hra hu i hm.1 hm.2
    · exact hrb hu i hm.1 hm.2
    · exact hbk hu i hm.1 hm.2
    · exact himm hu i hm.1 hm.2

/-- R75: no two rows share an opcode, so a row is found by its own opcode. -/
theorem opcodeOf_code (op : Opcode) : opcodeOf op.code = some op := by
  cases op <;> rfl

/-- R75: a row that is found has the opcode that was looked up. -/
theorem code_of_opcodeOf {b : BitVec 8} {op : Opcode} (h : opcodeOf b = some op) : op.code = b := by
  unfold opcodeOf at h
  have hb := List.find?_some h
  exact eq_of_beq hb

theorem opcodeOf_eq_none_iff {b : BitVec 8} : opcodeOf b = none ↔ ∀ op : Opcode, op.code ≠ b := by
  constructor
  · intro h op hop
    rw [← hop, opcodeOf_code] at h
    cases h
  · intro h
    cases ho : opcodeOf b with
    | none => rfl
    | some op => exact absurd (code_of_opcodeOf ho) (h op)

/-! ### Encoded words -/

theorem getLsbD_eq_div (w : Word64) (i : Nat) : w.getLsbD i = decide (w.toNat / 2 ^ i % 2 = 1) := by
  rw [BitVec.getLsbD, Nat.testBit_eq_decide_div_mod_eq]

/-- R71: an encoded word has its reserved bits 0, so it passes its row's test when its unused fields are 0. -/
theorem formatC_passes {op : Opcode} {rd ra rb : Reg} {bk : Bank} {imm : Nat}
    (hrd : op.usesRd = true ∨ rd = 0) (hra : op.usesRa = true ∨ ra = 0) (hrb : op.usesRb = true ∨ rb = 0)
    (hbk : op.usesBk = true ∨ bk = 0) (himm : op.usesImm = true ∨ imm = 0) :
    formatC op rd ra rb bk imm &&& op.mask = op.pattern := by
  have hc := toNat_opcode_lt op
  rw [mask_test_iff (opcField_formatC op rd ra rb bk imm), FieldsIllegal]
  simp only [rdField_formatC, raField_formatC, rbField_formatC, bkField_formatC]
  rintro (h | h | h | h | ⟨hu, h⟩ | ⟨hu, h⟩ | ⟨hu, h⟩ | ⟨hu, h⟩ | ⟨hu, h⟩)
  · rw [getLsbD_eq_div, toNat_formatC, decide_eq_true_iff] at h; omega
  · rw [getLsbD_eq_div, toNat_formatC, decide_eq_true_iff] at h; omega
  · rw [getLsbD_eq_div, toNat_formatC, decide_eq_true_iff] at h; omega
  · apply h
    apply BitVec.eq_of_toNat_eq
    rw [toNat_extract, toNat_formatC]
    change _ = 0
    omega
  · simp [hu] at hrd; exact h hrd
  · simp [hu] at hra; exact h hra
  · simp [hu] at hrb; exact h hrb
  · simp [hu] at hbk; exact h hbk
  · simp [hu] at himm; exact h (by rw [himm, immField_formatC _ _ _ _ _ _ (by omega)])

/-- R75: an encoded command has its opcode in bits 7:0. -/
theorem opcField_firstWord (i : Instr) : opcField i.firstWord = i.opcode.code := by
  cases i <;> exact opcField_formatC _ _ _ _ _ _

/-- R70: an encoded command has a payload exactly when its opcode asks for one. -/
theorem needsPayload_firstWord (i : Instr) : needsPayload i.firstWord = i.payload.isSome := by
  rw [needsPayload, opcField_firstWord, opcodeOf_code]
  cases i <;> rfl

/-- R39: a word is put together again from the two halves that submit it. -/
theorem append_halves (w : Word64) : (w.extractLsb' 32 32 ++ w.extractLsb' 0 32 : Word64) = w := by
  apply BitVec.eq_of_getLsbD_eq
  intro i hi
  rw [BitVec.getLsbD_append]
  split
  · simp [*]
  · simp [show 32 + (i - 32) = i by omega, show i - 32 < 32 by omega]

/-- R203: the OPC that a command reports is the opcode in bits 7:0 of the word it was decoded from. -/
theorem opcode_of_decode {w0 : Word64} {w1 : Option Word64} {i : Instr} (h : decode w0 w1 = .ok i) :
    i.opcode.code = opcField w0 := by
  unfold decode at h
  split at h
  · cases h
  · next op ho =>
    rw [← code_of_opcodeOf ho]
    split at h
    · cases h
    · cases op <;> cases w1 <;> simp only [operands, reduceCtorEq, Except.ok.injEq] at h <;> subst h <;> rfl

end Sys2Proof.Laws
end

