-- ==== Sys2Proof/Laws/Engine.lean ====
section
/-!
SUPPORT. What one step can do: a turn taken from the schedule, the engine's turn, a host access and the reset input, each said
once. Claims about all steps cite `step_cases` instead of unfolding the machine.
-/

namespace Sys2Proof.Machine

/-! ### Which turn a step takes -/

theorem step_before (s : State) (t : Turn) : step (s.before t) = takeTurn t s := rfl

/-- The engine's turn: it is the next one, or the schedule is empty. -/
theorem step_of_engineNext {s : State} (h : s.EngineNext) : step s = engineTurn s.nextTurns := by
  rcases h with h | h
  · have hs : s.nextTurns = s := by cases s; simp_all [State.nextTurns]
    rw [hs, step, nextTurn, h]
  · cases ht : s.turns with
    | nil => simp [ht] at h
    | cons t rest =>
      have : t = .engine := by simpa [ht] using h
      simp [step, nextTurn, ht, this, takeTurn, State.nextTurns]

theorem step_of_turn {s : State} {t : Turn} (h : s.turns.head? = some t) : step s = takeTurn t s.nextTurns := by
  cases ht : s.turns with
  | nil => simp [ht] at h
  | cons u rest =>
    have : u = t := by simpa [ht] using h
    simp [step, nextTurn, ht, this, State.nextTurns]

/-- Every step is the engine's turn, or the turn that stands first in the schedule. -/
theorem step_cases (s : State) :
    (s.EngineNext ∧ step s = engineTurn s.nextTurns) ∨
    (∃ a, s.turns.head? = some (.host a) ∧ step s = hostAccess a s.nextTurns) ∨
    (∃ b, s.turns.head? = some (.resetInput b) ∧ step s = .next (resetTurn b s.nextTurns)) := by
  cases ht : s.turns with
  | nil => exact .inl ⟨.inl ht, step_of_engineNext (.inl ht)⟩
  | cons t rest =>
    have hh : s.turns.head? = some t := by simp [ht]
    cases t with
    | engine => exact .inl ⟨.inr hh, step_of_engineNext (.inr hh)⟩
    | host a => exact .inr (.inl ⟨a, by simp, step_of_turn hh⟩)
    | resetInput b => exact .inr (.inr ⟨b, by simp, step_of_turn hh⟩)

/-! ### The engine -/

/-- R44: with no command in progress the engine's turn does nothing. -/
theorem engineTurn_of_not_busy {s : State} (h : ∀ w0 w1, s.cs ≠ .busy w0 w1) : engineTurn s = .next s := by
  unfold engineTurn
  split
  · rfl
  · split
    · exact absurd ‹_› (h _ _)
    all_goals rfl

/-- R44, R78: the engine's turn does nothing, raises an error, or retires a command; in the last two a new epoch has begun. -/
theorem engineTurn_next_cases {s t : State} (h : engineTurn s = .next t) :
    t = s ∨ ∃ w0 w1, s.inReset = false ∧ s.cs = .busy w0 w1 ∧
      ((∃ c, t = s.nextEpoch.raise (opcField w0) c) ∨
        ∃ i u, decode w0 w1 = .ok i ∧ Effect i s.nextEpoch u ∧ t = u.retire) := by
  unfold engineTurn at h
  split at h
  · exact .inl (by simpa using h.symm)
  · next hr =>
    split at h
    · next w0 w1 hc =>
      refine .inr ⟨w0, w1, by simpa using hr, hc, ?_⟩
      unfold execute at h
      split at h
      · next i hd =>
        rcases exec_next_cases h with ⟨c, rfl⟩ | ⟨u, hu, rfl⟩
        · exact .inl ⟨c, by rw [Laws.opcode_of_decode hd]⟩
        · exact .inr ⟨i, u, hd, hu, rfl⟩
      · injection h with h; exact .inl ⟨_, h.symm⟩
      · injection h with h; exact .inl ⟨_, h.symm⟩
      · cases h
    all_goals exact .inl (by simpa using h.symm)

/-! ### The host -/

@[simp] theorem State.nextEpoch_reg (s : State) (i : Reg) : s.nextEpoch.reg i = s.reg i := rfl

@[simp] theorem State.nextEpoch_bufRead (s : State) (b i : Nat) : s.nextEpoch.bufRead b i = s.bufRead b i := rfl

@[simp] theorem State.nextEpoch_addrBank (s : State) : s.nextEpoch.addrBank = s.addrBank := rfl

@[simp] theorem State.nextEpoch_addrIndex (s : State) : s.nextEpoch.addrIndex = s.addrIndex := rfl

@[simp] theorem State.nextEpoch_addrNamesWord (s : State) : s.nextEpoch.addrNamesWord = s.addrNamesWord := rfl

/-- The step of a well-formed read (R53), outside reset. -/
theorem step_read {s : State} {o : Fin 256} (hr : s.inReset = false) (ho : (o : Nat) % 4 = 0) :
    step (s.before (readTurn o)) = .next (State.answer (hostRead (hostRegAt o) s)) := by
  rw [step_before]
  simp [takeTurn, readTurn, hostAccess, HostAccess.legal, ho, hr]

/-- The step of a well-formed write (R53), outside reset. -/
theorem step_write {s : State} {o : Fin 256} {v : Word32} (hr : s.inReset = false) (ho : (o : Nat) % 4 = 0) :
    step (s.before (writeTurn o v)) = .next (hostWrite (hostRegAt o) v s.nextEpoch) := by
  rw [step_before]
  simp [takeTurn, writeTurn, hostAccess, HostAccess.legal, ho, hr]

/-- R55, R57: a host read changes nothing, or sets DROP. -/
theorem hostRead_state (r : HostReg) (s : State) :
    (hostRead r s).2 = s ∨
      (r = .bufdata ∧ (∀ w0 w1, s.cs ≠ .busy w0 w1) ∧ s.addrNamesWord = false ∧ hostRead r s = (0, { s with drop := true })) := by
  cases r
  case bufdata =>
    simp only [hostRead, readBufdata]
    split
    · exact .inl rfl
    all_goals
      next hc =>
      split
      · split <;> exact .inl rfl
      · next ha => exact .inr ⟨trivial, by simp [hc], by simpa using ha, rfl⟩
  case freg i =>
    simp only [hostRead, readFreg]
    split <;> exact .inl rfl
  all_goals exact .inl rfl

/-- R56, R57: the value that a read of BUFDATA returns. -/
theorem readBufdata_value (s : State) :
    (readBufdata s).1 =
      match s.cs with
      | .busy _ _ => s.drawAt bufdataOffset
      | .idle | .pend2 _ | .halted =>
        if s.addrNamesWord then
          ((s.bufRead s.addrBank s.addrIndex).map (BitVec.ofNat 32)).getD (s.drawAt bufdataOffset)
        else 0 := by
  unfold readBufdata
  cases s.cs
  case busy => rfl
  all_goals
    cases s.addrNamesWord
    · rfl
    · cases s.bufRead s.addrBank s.addrIndex <;> rfl

/-- R55: the value of a read does not depend on what the host last read, nor, but for STATUS, on DROP, and these are all that a
read can change. -/
theorem hostRead_value (r : HostReg) (s : State) (x : Word32) (d : Bool) (h : r = .status → d = s.drop) :
    (hostRead r { s with busRead := x, drop := d }).1 = (hostRead r s).1 := by
  cases r
  case status => simp only [hostRead, State.status, h rfl]
  case bufdata =>
    exact (readBufdata_value _).trans (readBufdata_value s).symm
  case freg i =>
    simp only [hostRead, readFreg, State.reg, State.drawAt]
    split <;> rfl
  all_goals rfl

/-- R35: a CTRL write as one update of ERRCODE, DROP and the control state. -/
theorem writeCtrl_eq (v : Word32) (s : State) :
    writeCtrl v s = { s with
      errcode := if v.getLsbD 0 = true ∧ s.cs = .halted then 0 else s.errcode,
      drop := if v.getLsbD 1 = true then false else s.drop,
      cs := match s.cs with
        | .halted => if v.getLsbD 0 = true then .idle else .halted
        | .pend2 w0 => if v.getLsbD 2 = true then .idle else .pend2 w0
        | .busy w0 w1 => .busy w0 w1
        | .idle => .idle } := by
  obtain ⟨c, f, n, eq, lt, buf, root, bitrev, cv, cs, d, e, lo, ba, r, ts, br, dr⟩ := s
  unfold writeCtrl
  generalize v.getLsbD 0 = b0
  generalize v.getLsbD 1 = b1
  generalize v.getLsbD 2 = b2
  cases cs <;> cases b0 <;> cases b1 <;> cases b2 <;> rfl

/-- R43, R55: what a host write leaves alone. -/
theorem hostWrite_frame (r : HostReg) (v : Word32) (s : State) :
    hostWrite r v s = { s with
      cs := (hostWrite r v s).cs, buf := (hostWrite r v s).buf, drop := (hostWrite r v s).drop,
      errcode := (hostWrite r v s).errcode, cmdLo := (hostWrite r v s).cmdLo, bufaddr := (hostWrite r v s).bufaddr } := by
  cases r
  case ctrl => simp only [hostWrite, writeCtrl_eq]
  case cmdHi =>
    simp only [hostWrite, submit]
    split
    · split <;> rfl
    all_goals rfl
  case bufdata =>
    simp only [hostWrite, writeBufdata]
    split
    · rfl
    all_goals split <;> rfl
  all_goals rfl

/-- R41, R56, R57: the buffer changes only by a BUFDATA write that names a word, while the engine is not Busy. -/
theorem hostWrite_buf (r : HostReg) (v : Word32) (s : State) :
    (hostWrite r v s).buf = s.buf ∨
    (r = .bufdata ∧ (∀ w0 w1, s.cs ≠ .busy w0 w1) ∧ s.addrBank < s.cfg.nbank ∧ s.addrIndex < s.cfg.size ∧
      hostWrite r v s = s.bufWrite s.addrBank s.addrIndex (v.toNat % s.cfg.p)) := by
  cases r
  case ctrl => exact .inl (by simp only [hostWrite, writeCtrl_eq])
  case cmdHi =>
    refine .inl ?_
    simp only [hostWrite, submit]
    split
    · split <;> rfl
    all_goals rfl
  case bufdata =>
    simp only [hostWrite, writeBufdata]
    split
    · exact .inl rfl
    all_goals
      next hc =>
      split
      · next ha =>
        rw [State.addrNamesWord, Bool.and_eq_true, decide_eq_true_iff, decide_eq_true_iff] at ha
        exact .inr ⟨trivial, by simp [hc], ha.1, ha.2, rfl⟩
      · exact .inl rfl
  all_goals exact .inl rfl

/-- R35, R39: how a host write changes the control state and ERRCODE. -/
theorem hostWrite_control (r : HostReg) (v : Word32) (s : State) :
    ((hostWrite r v s).cs = s.cs ∧ (hostWrite r v s).errcode = s.errcode) ∨
    (r = .ctrl ∧ v.getLsbD 0 = true ∧ s.cs = .halted ∧ (hostWrite r v s).cs = .idle ∧ (hostWrite r v s).errcode = 0) ∨
    (r = .ctrl ∧ (∃ w0, s.cs = .pend2 w0) ∧ (hostWrite r v s).cs = .idle ∧ (hostWrite r v s).errcode = s.errcode) ∨
    (r = .cmdHi ∧ (hostWrite r v s).errcode = s.errcode ∧
      ((s.cs = .idle ∧ needsPayload (v ++ s.cmdLo) = true ∧ (hostWrite r v s).cs = .pend2 (v ++ s.cmdLo)) ∨
       (s.cs = .idle ∧ needsPayload (v ++ s.cmdLo) = false ∧ (hostWrite r v s).cs = .busy (v ++ s.cmdLo) none) ∨
       (∃ w0, s.cs = .pend2 w0 ∧ (hostWrite r v s).cs = .busy w0 (some (v ++ s.cmdLo))))) := by
  cases r
  case ctrl =>
    simp only [hostWrite, writeCtrl_eq]
    generalize v.getLsbD 0 = b0
    generalize v.getLsbD 2 = b2
    cases hc : s.cs <;> cases b0 <;> cases b2 <;> simp
  case cmdHi =>
    simp only [hostWrite, submit]
    cases hc : s.cs
    case idle => cases hn : needsPayload (v ++ s.cmdLo) <;> simp
    all_goals simp
  case bufdata =>
    refine .inl ?_
    simp only [hostWrite, writeBufdata]
    split
    · simp
    all_goals split <;> simp [State.bufWrite]
  all_goals exact .inl ⟨rfl, rfl⟩

/-- R45: what a host write does to DROP. -/
theorem hostWrite_drop (r : HostReg) (v : Word32) (s : State) :
    (hostWrite r v s).drop = s.drop ∨
    (r = .ctrl ∧ v.getLsbD 1 = true ∧ (hostWrite r v s).drop = false) ∨
    (r = .cmdHi ∧ ((∃ w0 w1, s.cs = .busy w0 w1) ∨ s.cs = .halted) ∧ (hostWrite r v s).drop = true) ∨
    (r = .bufdata ∧ ((∃ w0 w1, s.cs = .busy w0 w1) ∨ s.addrNamesWord = false) ∧ (hostWrite r v s).drop = true) := by
  cases r
  case ctrl =>
    simp only [hostWrite, writeCtrl_eq]
    generalize v.getLsbD 1 = b1
    cases b1 <;> simp
  case cmdHi =>
    simp only [hostWrite, submit]
    cases hc : s.cs
    case idle => cases hn : needsPayload (v ++ s.cmdLo) <;> simp
    all_goals simp
  case bufdata =>
    simp only [hostWrite, writeBufdata]
    cases hc : s.cs
    case busy => simp
    all_goals cases ha : s.addrNamesWord <;> simp [State.bufWrite]
  all_goals exact .inl rfl

end Sys2Proof.Machine
end

