-- ==== Sys2Proof/Laws/PerInstr.lean ====
section
/-!
SUPPORT. Facts about each command as syntax, one lemma per constructor.

`EncodesItsRow.Statement i`: the encoded first word of `i` has the opcode of its row (R71, R75), passes the row's mask and
match (R78), and a payload follows exactly when the row has two words (R70).
-/

namespace Sys2Proof.Laws.EncodesItsRow

def Statement (i : Instr) : Prop :=
  opcField i.firstWord = i.opcode.code ∧ i.firstWord &&& i.opcode.mask = i.opcode.pattern ∧
    i.payload.isSome = i.opcode.hasPayload

theorem nop : Statement (.nop) :=
  ⟨opcField_formatC _ _ _ _ _ _, formatC_passes (.inr rfl) (.inr rfl) (.inr rfl) (.inr rfl) (.inr rfl), rfl⟩

theorem fadd (rd : Reg) (ra : Reg) (rb : Reg) : Statement (.fadd rd ra rb) :=
  ⟨opcField_formatC _ _ _ _ _ _, formatC_passes (.inl rfl) (.inl rfl) (.inl rfl) (.inr rfl) (.inr rfl), rfl⟩

theorem fsub (rd : Reg) (ra : Reg) (rb : Reg) : Statement (.fsub rd ra rb) :=
  ⟨opcField_formatC _ _ _ _ _ _, formatC_passes (.inl rfl) (.inl rfl) (.inl rfl) (.inr rfl) (.inr rfl), rfl⟩

theorem fmul (rd : Reg) (ra : Reg) (rb : Reg) : Statement (.fmul rd ra rb) :=
  ⟨opcField_formatC _ _ _ _ _ _, formatC_passes (.inl rfl) (.inl rfl) (.inl rfl) (.inr rfl) (.inr rfl), rfl⟩

theorem fneg (rd : Reg) (ra : Reg) : Statement (.fneg rd ra) :=
  ⟨opcField_formatC _ _ _ _ _ _, formatC_passes (.inl rfl) (.inl rfl) (.inr rfl) (.inr rfl) (.inr rfl), rfl⟩

theorem finv (rd : Reg) (ra : Reg) : Statement (.finv rd ra) :=
  ⟨opcField_formatC _ _ _ _ _ _, formatC_passes (.inl rfl) (.inl rfl) (.inr rfl) (.inr rfl) (.inr rfl), rfl⟩

theorem fdiv (rd : Reg) (ra : Reg) (rb : Reg) : Statement (.fdiv rd ra rb) :=
  ⟨opcField_formatC _ _ _ _ _ _, formatC_passes (.inl rfl) (.inl rfl) (.inl rfl) (.inr rfl) (.inr rfl), rfl⟩

theorem fpow (rd : Reg) (ra : Reg) (e : Nat) : Statement (.fpow rd ra e) :=
  ⟨opcField_formatC _ _ _ _ _ _, formatC_passes (.inl rfl) (.inl rfl) (.inr rfl) (.inr rfl) (.inr rfl), rfl⟩

theorem fseti (rd : Reg) (v : Int) : Statement (.fseti rd v) :=
  ⟨opcField_formatC _ _ _ _ _ _, formatC_passes (.inl rfl) (.inr rfl) (.inr rfl) (.inr rfl) (.inr rfl), rfl⟩

theorem fcmp (ra : Reg) (rb : Reg) : Statement (.fcmp ra rb) :=
  ⟨opcField_formatC _ _ _ _ _ _, formatC_passes (.inr rfl) (.inl rfl) (.inl rfl) (.inr rfl) (.inr rfl), rfl⟩

theorem fld (rd : Reg) (bk : Bank) (k : Nat) : Statement (.fld rd bk k) :=
  ⟨opcField_formatC _ _ _ _ _ _, formatC_passes (.inl rfl) (.inr rfl) (.inr rfl) (.inl rfl) (.inl rfl), rfl⟩

theorem fst (ra : Reg) (bk : Bank) (k : Nat) : Statement (.fst ra bk k) :=
  ⟨opcField_formatC _ _ _ _ _ _, formatC_passes (.inr rfl) (.inl rfl) (.inr rfl) (.inl rfl) (.inl rfl), rfl⟩

theorem ntt (bk : Bank) (n : Nat) : Statement (.ntt bk n) :=
  ⟨opcField_formatC _ _ _ _ _ _, formatC_passes (.inr rfl) (.inr rfl) (.inr rfl) (.inl rfl) (.inl rfl), rfl⟩

theorem intt (bk : Bank) (n : Nat) : Statement (.intt bk n) :=
  ⟨opcField_formatC _ _ _ _ _ _, formatC_passes (.inr rfl) (.inr rfl) (.inr rfl) (.inl rfl) (.inl rfl), rfl⟩

theorem rbuild : Statement (.rbuild) :=
  ⟨opcField_formatC _ _ _ _ _ _, formatC_passes (.inr rfl) (.inr rfl) (.inr rfl) (.inr rfl) (.inr rfl), rfl⟩

theorem rrd (rd : Reg) (a : Nat) : Statement (.rrd rd a) :=
  ⟨opcField_formatC _ _ _ _ _ _, formatC_passes (.inl rfl) (.inr rfl) (.inr rfl) (.inr rfl) (.inl rfl), rfl⟩

theorem brrd (rd : Reg) (k : Nat) : Statement (.brrd rd k) :=
  ⟨opcField_formatC _ _ _ _ _ _, formatC_passes (.inl rfl) (.inr rfl) (.inr rfl) (.inr rfl) (.inl rfl), rfl⟩

end Sys2Proof.Laws.EncodesItsRow
end

