-- ==== Sys2Proof/Tests/Slice0.lean ====
section
/-!
SUPPORT. Tests. Expected values are from 95_test_vectors.md, 30_encoding.md R81 and the corner cases of the command rules; each
section names its source. The witnesses at the end show, for each statement that has hypotheses, values that meet them all.
-/

namespace Sys2Proof.Tests

open Sys2Proof Sys2Proof.Machine

/-! ### Helpers -/

/-- The next state of an outcome; the reset state where it is a fault or a refusal. -/
def after (o : Host.Outcome State Fault Refusal) : State :=
  match o with
  | .next t => t
  | .fault _ => State.reset
  | .refused _ => State.reset

/-- The reset state with F2 and F3 set. -/
def regs (a b : Nat) : State :=
  (State.reset.setReg 2 a).setReg 3 b

/-- The reset state with words 0, 1, ... of a bank written. -/
def bank (b : Nat) (ws : List Nat) : State :=
  { State.reset with buf := State.reset.buf.writeRun b 0 ws }

/-- Words 0 to n - 1 of a bank. -/
def words (s : State) (b n : Nat) : Option (List Nat) :=
  s.buf.readRun b 0 n

/-- The state after one step of a command accepted in the reset state. -/
def ran (w0 : Word64) (w1 : Option Word64) : State :=
  after (step (State.reset.withCommand w0 w1))

/-- The state after one host access. -/
def hosted (t : Turn) (s : State) : State :=
  after (step (s.before t))

/-- The block of R7 for `p = 17`, `g = 3`, `K = 2`, `NBANK = 2`. -/
def tiny : Config :=
  { p := 17, g := 3, K := 2, nbank := 2, ok := by decide +kernel }

def fresh : State :=
  State.resetFor tiny

/-! ### WellFormed refuses operands that do not fit (R79) -/

theorem test_wf_fpow : (Instr.fpow 0 0 (2 ^ 64)).wellFormed = false := by decide
theorem test_wf_fseti_high : (Instr.fseti 0 (2 ^ 63)).wellFormed = false := by decide
theorem test_wf_fseti_low : (Instr.fseti 0 (-2 ^ 63 - 1)).wellFormed = false := by decide
theorem test_wf_fld : (Instr.fld 0 0 (2 ^ 32)).wellFormed = false := by decide
theorem test_wf_fst : (Instr.fst 0 0 (2 ^ 32)).wellFormed = false := by decide
theorem test_wf_ntt : (Instr.ntt 0 (2 ^ 32)).wellFormed = false := by decide
theorem test_wf_intt : (Instr.intt 0 (2 ^ 32)).wellFormed = false := by decide
theorem test_wf_rrd : (Instr.rrd 0 (2 ^ 32)).wellFormed = false := by decide
theorem test_wf_brrd : (Instr.brrd 0 (2 ^ 32)).wellFormed = false := by decide

/-! ### Configurations (R7, R8, R9) -/

theorem test_config_not_prime : Params.supported { p := 15, g := 2, K := 1, nbank := 2 } = false := by decide +kernel
theorem test_config_not_primitive : Params.supported { p := 17, g := 2, K := 4, nbank := 2 } = false := by decide +kernel
theorem test_config_no_transform : Params.supported { p := 17, g := 3, K := 5, nbank := 2 } = false := by decide +kernel
theorem test_config_no_bank : Params.supported { p := 17, g := 3, K := 4, nbank := 0 } = false := by decide +kernel
theorem test_config_even : Params.supported { p := 2, g := 1, K := 1, nbank := 1 } = false := by decide +kernel

/-! ### Decoding: words written out from R71 and R75 (R81, L2 "Encoding and decode errors", P1, P2) -/

theorem test_decode_nop : decode 0x0000000000000000 none = .ok .nop := rfl
theorem test_decode_fadd : decode 0x0000000000032101 none = .ok (.fadd 1 2 3) := rfl
theorem test_decode_fsub : decode 0x0000000000032102 none = .ok (.fsub 1 2 3) := rfl
theorem test_decode_fmul : decode 0x0000000000021103 none = .ok (.fmul 1 1 2) := rfl
theorem test_decode_fneg : decode 0x0000000000002304 none = .ok (.fneg 3 2) := rfl
theorem test_decode_finv : decode 0x0000000000001205 none = .ok (.finv 2 1) := rfl
theorem test_decode_fdiv : decode 0x0000000000056706 none = .ok (.fdiv 7 6 5) := rfl
theorem test_decode_fpow : decode 0x0000000000004007 (some 0x000000003B800000) = .ok (.fpow 0 4 998244352) := rfl
theorem test_decode_fseti : decode 0x0000000000000108 (some 0xFFFFFFFFFFFFFFFF) = .ok (.fseti 1 (-1)) := rfl
theorem test_decode_fcmp : decode 0x0000000000023009 none = .ok (.fcmp 3 2) := rfl
theorem test_decode_fld : decode 0x0000000700100510 none = .ok (.fld 5 1 7) := rfl
theorem test_decode_fst : decode 0x0000000300002011 none = .ok (.fst 2 0 3) := rfl
theorem test_decode_ntt : decode 0x0000000800000020 none = .ok (.ntt 0 8) := rfl
theorem test_decode_intt : decode 0x0000000800100021 none = .ok (.intt 1 8) := rfl
theorem test_decode_rbuild : decode 0x0000000000000030 none = .ok .rbuild := rfl
theorem test_decode_rrd : decode 0x0000000300000231 none = .ok (.rrd 2 3) := rfl
theorem test_decode_brrd : decode 0x0000000100000332 none = .ok (.brrd 3 1) := rfl

theorem test_decode_reserved_bit : decode 0x0000000000032901 none = .error .illegalField := rfl
theorem test_decode_unused_field : decode 0x0000000000003111 none = .error .illegalField := rfl
theorem test_decode_unused_imm : decode 0x0000000100000001 none = .error .illegalField := rfl
theorem test_decode_opcode : decode 0x000000000000000A none = .error .illegalOpcode := rfl
theorem test_decode_opcode_first : decode 0x00000001000000FF none = .error .illegalOpcode := rfl

/-- The table numbers a payload's bits from 64 on, and a shorter word has a payload of zeros. -/
theorem test_table_word_payload : decodeTableWord 128 0x0000000000000003_0000000000000408 = some (.fseti 4 3) := rfl
theorem test_table_word_short : decodeTableWord 64 0x0000000000002107 = some (.fpow 1 2 0) := rfl

theorem test_encode_fseti : encode (.fseti 1 (-1)) = (0x0000000000000108, some 0xFFFFFFFFFFFFFFFF) := rfl
theorem test_encode_fld : encode (.fld 5 1 7) = (0x0000000700100510, none) := rfl

/-! ### Assembly (R79, R80) -/

theorem test_assembly_fld : assembly (.fld 5 1 7) = "fld f5, b1[7]" := by decide +kernel
theorem test_assembly_fseti : assembly (.fseti 4 (-5)) = "fseti f4, -5" := by decide +kernel
theorem test_expand_froot : expand tiny (.froot 1 4 1) = some (.rrd 1 3) := by decide +kernel
theorem test_expand_froot_refused : expand tiny (.froot 1 8 1) = none := by decide +kernel

/-! ### The field unit (L2 "Field arithmetic") -/

theorem test_nop_counts : exec .nop { State.reset with cmdcnt := 5 } = .next { State.reset with cmdcnt := 6 } := rfl
theorem test_fadd_wraps : (after (exec (.fadd 1 2 3) (regs 998244352 1))).reg 1 = 0 := by decide +kernel
theorem test_fadd_p_minus_2 : (after (exec (.fadd 1 2 3) (regs 998244352 998244352))).reg 1 = 998244351 := by decide +kernel
theorem test_fsub_borrows : (after (exec (.fsub 1 2 3) (regs 3 5))).reg 1 = 998244351 := by decide +kernel
theorem test_fsub_zero_one : (after (exec (.fsub 2 2 3) (regs 0 1))).reg 2 = 998244352 := by decide +kernel
theorem test_fmul_exact : (after (exec (.fmul 1 2 3) (regs 123456789 987654321))).reg 1 = 263684735 := by decide +kernel
theorem test_fmul_squares : (after (exec (.fmul 2 2 2) (regs 998244352 0))).reg 2 = 1 := by decide +kernel
theorem test_fneg_zero : (after (exec (.fneg 1 2) (regs 0 0))).reg 1 = 0 := by decide +kernel
theorem test_fneg_half : (after (exec (.fneg 1 2) (regs 499122177 0))).reg 1 = 499122176 := by decide +kernel
theorem test_finv : (after (exec (.finv 1 2) (regs 123456789 0))).reg 1 = 25170271 := by decide +kernel
theorem test_finv_zero : (after (exec (.finv 1 2) (regs 0 7))).errcode = 0x00050101 := by decide +kernel
theorem test_fdiv : (after (exec (.fdiv 1 2 3) (regs 5 7))).reg 1 = 285212673 := by decide +kernel
theorem test_fdiv_zero_zero : (after (exec (.fdiv 1 2 3) (regs 0 0))).errcode = 0x00060201 := by decide +kernel
theorem test_fpow_wide : (after (exec (.fpow 1 2 18446744073709551615) (regs 5 0))).reg 1 = 631288931 := by decide +kernel
theorem test_fpow_zero_zero : (after (exec (.fpow 1 2 0) (regs 0 0))).reg 1 = 1 := by decide +kernel
theorem test_fseti_negative : (after (exec (.fseti 4 (-5)) State.reset)).reg 4 = 998244348 := by decide +kernel
theorem test_fseti_least : (after (exec (.fseti 4 (-9223372036854775808)) State.reset)).reg 4 = 532218398 := by
  decide +kernel
theorem test_fcmp_less : exec (.fcmp 2 3) (regs 3 5) = .next { regs 3 5 with lt := true, cmdcnt := 1 } := rfl
theorem test_fcmp_integer_order :
    (after (exec (.fcmp 2 3) (regs 998244352 1))).eq = false ∧ (after (exec (.fcmp 2 3) (regs 998244352 1))).lt = false := by
  decide +kernel

/-! ### Buffer transfer (L2 "Buffer transfer") -/

theorem test_fld : (after (exec (.fld 5 1 7) (State.reset.bufWrite 1 7 42))).reg 5 = 42 := by decide +kernel
theorem test_fld_unwritten : exec (.fld 1 0 5) State.reset = .fault .unwrittenRead := rfl
theorem test_fst : (after (exec (.fst 2 0 3) (regs 7 0))).bufRead 0 3 = some 7 := by decide +kernel
theorem test_fst_other_bank : (after (exec (.fst 2 1 3) (bank 0 [1, 2, 3, 4]))).bufRead 0 3 = some 4 := by decide +kernel
theorem test_fst_bank_first : (after (exec (.fst 1 3 4096) State.reset)).errcode = 0x00110402 := by decide +kernel

/-! ### The root cache (L2 "Root cache") -/

theorem test_rbuild_once :
    (after (exec .rbuild State.reset)).cvalid = true ∧ (after (exec .rbuild State.reset)).cmdcnt = 1 := by decide +kernel
theorem test_rrd : (after (exec (.rrd 1 3) State.reset)).reg 1 = 911660635 := by decide +kernel
theorem test_rrd_zero : (after (exec (.rrd 1 0) State.reset)).errcode = 0x00310502 := by decide +kernel
theorem test_brrd : (after (exec (.brrd 2 1) State.reset)).reg 2 = 512 := by decide +kernel
theorem test_brrd_beyond : (after (exec (.brrd 1 1024) State.reset)).errcode = 0x00320502 := by decide +kernel

/-! ### The transforms (L2 "Transforms") -/

theorem test_ntt : words (after (exec (.ntt 0 8) (bank 0 [1, 2, 3, 4, 5, 6, 7, 8]))) 0 8 =
    some [36, 894301004, 346334868, 201631260, 998244349, 796613085, 651909477, 103943341] := by decide +kernel
theorem test_ntt_order_of_checks : (after (exec (.ntt 0 3072) State.reset)).errcode = 0x00200102 := by decide +kernel
theorem test_intt : words (after (exec (.intt 0 4) (bank 0 [12, 998244349, 0, 998244349]))) 0 4 = some [1, 3, 5, 3] := by
  decide +kernel
theorem test_intt_bank : (after (exec (.intt 2 4) State.reset)).errcode = 0x00210402 := by decide +kernel

/-! ### The engine (L2 "Encoding and decode errors", P3) -/

theorem test_step_rrd : (ran 0x0000000300000231 none).reg 2 = 911660635 := by decide +kernel
theorem test_step_illegal_field : (ran 0x0000000000032901 none).errcode = 0x00010204 := by decide +kernel
theorem test_step_illegal_opcode : (ran 0x00000001000000FF none).errcode = 0x00FF0104 := by decide +kernel
theorem test_step_fetch_word : step (State.reset.withFetchWord 64 0) = .next { State.reset with cmdcnt := 1, epoch := 1 } := rfl
theorem test_step_status : (ran 0x0000000000001205 none).status = 0x04 := by decide +kernel

/-! ### The host port (L2 "Host protocol", "Buffer transfer", R31) -/

theorem test_cfg_word : cfgWord Config.reference = 0x00000E2A := by decide +kernel
theorem test_mod_word : (hosted (readTurn 0x04) State.reset).busRead = 0x3B800001 := by decide +kernel
theorem test_pend2 :
    (hosted (writeTurn 0x24 0) (hosted (writeTurn 0x20 0x00000108) State.reset)).status = 0x02 := by decide +kernel
theorem test_cancel : (hosted (writeTurn 0x10 4) { State.reset with cs := .pend2 0x108 }).cs = .idle := by decide +kernel
theorem test_clear_both :
    hosted (writeTurn 0x10 3) { State.reset with cs := .halted, errcode := 0x00050101, drop := true } =
      State.reset.nextEpoch := rfl
theorem test_cmd_hi_halted : (hosted (writeTurn 0x24 0) { State.reset with cs := .halted }).drop = true := by decide +kernel
theorem test_bufdata_reduces :
    (hosted (writeTurn 0x2C 0xFFFFFFFF) { State.reset with bufaddr := 0x10000009 }).bufRead 1 9 = some 301989883 := by
  decide +kernel
theorem test_bufdata_no_bank :
    hosted (writeTurn 0x2C 5) { State.reset with bufaddr := 0x20000000 } =
      { State.reset with bufaddr := 0x20000000, drop := true, epoch := 1 } := rfl
theorem test_bufdata_read_no_word :
    (hosted (readTurn 0x2C) { State.reset with bufaddr := 0x00000400 }).drop = true := by decide +kernel
/-- R55: two reads of an unwritten word (a draw) with nothing between. -/
theorem test_reread_draw :
    (hosted (readTurn 0x2C) (hosted (readTurn 0x2C) State.reset)).busRead = (hosted (readTurn 0x2C) State.reset).busRead := rfl
theorem test_host_access_narrow :
    step (State.reset.before (.host { op := .read, offset := 0x0C, bytes := 2 })) = .refused .hostAccessForm := rfl

/-! ### Witnesses: hypotheses that are met

For each statement with hypotheses, named after it: values that meet them, one line for each of its cases, at the boundaries of
their ranges. -/

/-- In the block `tiny`, word `j` of bank 0 holds `j + 1`, for every `j` below 4. -/
def filled : State :=
  { fresh with buf := fresh.buf.writeRun 0 0 [1, 2, 3, 4] }

theorem fresh_cacheOk : fresh.CacheOk := by
  unfold State.CacheOk
  decide +kernel

theorem filled_cacheOk : filled.CacheOk := fresh_cacheOk

theorem built_cacheOk : (after (exec .rbuild fresh)).CacheOk := by
  unfold State.CacheOk
  decide +kernel

theorem witness_StepKeepsInvariant : fresh.Inv ∧ step fresh = .next fresh := by
  refine ⟨⟨?_, ⟨List.Pairwise.nil, ?_, ?_⟩, fresh_cacheOk, trivial, ⟨?_, ?_, ?_⟩, ?_⟩, rfl⟩
  · unfold State.RegsCanonical; decide +kernel
  · intro k v h; cases h
  · intro k v h; cases h
  · decide +kernel
  · decide +kernel
  · decide +kernel
  · unfold State.FlagsOk; decide +kernel

theorem witness_DecodeOfEncode :
    (Instr.fseti 7 (-2 ^ 63)).WellFormed ∧ (Instr.fseti 7 (2 ^ 63 - 1)).WellFormed ∧
      (Instr.fpow 7 7 (2 ^ 64 - 1)).WellFormed ∧ (Instr.fld 7 15 (2 ^ 32 - 1)).WellFormed := by decide

theorem witness_EncodeOfDecode :
    (none : Option Word64).isSome = needsPayload 0x32101 ∧ decode 0x32101 none = .ok (.fadd 1 2 3) ∧
    (some (0 : Word64)).isSome = needsPayload 0x108 ∧ decode 0x108 (some 0) = .ok (.fseti 1 0) := by
  decide +kernel

/-- Every end of the four ranges of illegal opcodes. -/
theorem witness_IllegalOpcodeRaises :
    (State.reset.withCommand 0x0A none).inReset = false ∧ (State.reset.withCommand 0x0A none).EngineNext ∧
    (State.reset.withCommand 0x0A none).cs = .busy 0x0A none ∧
    ∀ b ∈ ([0x0A, 0x0F, 0x12, 0x1F, 0x22, 0x2F, 0x33, 0xFF] : List Nat),
      ((BitVec.ofNat 64 b).extractLsb' 0 8).toNat = b ∧
      ((0x0A ≤ b ∧ b ≤ 0x0F) ∨ (0x12 ≤ b ∧ b ≤ 0x1F) ∨ (0x22 ≤ b ∧ b ≤ 0x2F) ∨ 0x33 ≤ b) :=
  ⟨rfl, .inr rfl, rfl, by decide +kernel⟩

theorem witness_IllegalFieldRaises :
    (State.reset.withCommand 0x32901 none).inReset = false ∧ (State.reset.withCommand 0x32901 none).EngineNext ∧
    (State.reset.withCommand 0x32901 none).cs = .busy 0x32901 none ∧
    (0x32901 : Word64).extractLsb' 0 8 = Opcode.fadd.code ∧ FieldsIllegal .fadd 0x32901 ∧
    FieldsIllegal .fadd 0x8001 ∧ FieldsIllegal .fadd 0x80001 ∧ FieldsIllegal .fadd 0x80000001 ∧
    FieldsIllegal .fst 0x3111 ∧ FieldsIllegal .fseti 0x7008 ∧ FieldsIllegal .fneg 0x10004 ∧ FieldsIllegal .rrd 0x100031 ∧
    FieldsIllegal .nop 0x100000000 := by
  refine ⟨rfl, .inr rfl, rfl, rfl, ?_, ?_, ?_, ?_, ?_, ?_, ?_, ?_, ?_⟩ <;> unfold FieldsIllegal <;> decide +kernel

theorem witness_StepRunsDecodedCommand :
    (State.reset.withCommand 0x32101 none).inReset = false ∧ (State.reset.withCommand 0x32101 none).EngineNext ∧
    (State.reset.withCommand 0x32101 none).cs = .busy 0x32101 none ∧ decode 0x32101 none = .ok (.fadd 1 2 3) ∧
    ({ State.reset with cs := .busy 0x32101 none } : State).EngineNext ∧
    -- and Idle, Pend2 and Halted, with the empty schedule and with the engine's turn
    State.reset.EngineNext ∧ (∀ w0 w1, State.reset.cs ≠ .busy w0 w1) ∧
    (∀ w0 w1, ({ State.reset with cs := .pend2 0x108 } : State).cs ≠ .busy w0 w1) ∧
    (∀ w0 w1, ({ State.reset with cs := .halted } : State).cs ≠ .busy w0 w1) ∧ (State.reset.before .engine).EngineNext :=
  ⟨rfl, .inr rfl, rfl, rfl, .inl rfl, .inl rfl, (fun _ _ h => by cases h), (fun _ _ h => by cases h),
    (fun _ _ h => by cases h), .inr rfl⟩

theorem witness_ProtocolRunsCommand :
    (Instr.fseti 1 (-1)).WellFormed ∧
    ({ State.reset with turns := commandTurns (.fseti 1 (-1)) ++ [.engine] } : State).cs = .idle ∧
    ({ State.reset with turns := commandTurns (.fseti 1 (-1)) ++ [.engine] } : State).inReset = false ∧
    ({ State.reset with turns := commandTurns (.fseti 1 (-1)) ++ [.engine] } : State).turns =
      commandTurns (.fseti 1 (-1)) ++ .engine :: [] :=
  ⟨by decide, rfl, rfl, rfl⟩

/-- FADD, FSUB, FNEG: canonical operands in each branch of the reduction. -/
theorem witness_FaddAdds :
    (regs 998244352 1).reg 2 < 998244353 ∧ (regs 998244352 1).reg 3 < 998244353 ∧
    998244353 ≤ (regs 998244352 1).reg 2 + (regs 998244352 1).reg 3 ∧
    (regs 998244351 1).reg 2 + (regs 998244351 1).reg 3 < 998244353 := by decide +kernel

theorem witness_FsubSubtracts :
    (regs 0 1).reg 2 < (regs 0 1).reg 3 ∧ (regs 0 1).reg 3 < 998244353 ∧ (regs 1 1).reg 3 ≤ (regs 1 1).reg 2 := by
  decide +kernel

theorem witness_FnegNegates : (regs 0 998244352).reg 2 = 0 ∧ (regs 0 998244352).reg 3 < 998244353 := by decide +kernel

theorem witness_FinvInverts : (regs 998244352 1).reg 2 < 998244353 ∧ (regs 998244352 1).reg 2 ≠ 0 := by decide +kernel

theorem witness_FdivDivides :
    (regs 0 998244352).reg 2 < 998244353 ∧ (regs 0 998244352).reg 3 < 998244353 ∧ (regs 0 998244352).reg 3 ≠ 0 := by
  decide +kernel

theorem witness_ZeroDivisorsRaise : State.reset.reg 1 = 0 := by decide +kernel

theorem witness_FpowRaisesToPower : State.reset.reg 1 = 0 ∧ (1 : Nat) ≠ 0 := by decide +kernel

theorem witness_PseudoInstructionsExpand :
    fresh.reg 2 < fresh.cfg.p ∧ (1 ≤ 2 ∧ 2 ≤ tiny.K ∧ 1 < 2 ^ 2 / 2) ∧ 2 ^ tiny.K < 8 ∧ 4 / 2 ≤ 2 := by decide +kernel

theorem witness_FldLoads :
    ((1 : Bank) : Nat) < Config.reference.nbank ∧ 1023 < 2 ^ Config.reference.K ∧
    (State.reset.bufWrite 1 1023 998244352).bufRead 1 1023 = some 998244352 := by decide +kernel

theorem witness_FstStores :
    ((1 : Bank) : Nat) < Config.reference.nbank ∧ 1023 < 2 ^ Config.reference.K ∧ wordKey 0 1023 ≠ wordKey 1 1023 ∧
    State.reset.buf.wf ∧ ¬ ((0 : Nat) = ((1 : Bank) : Nat) ∧ (1023 : Nat) = 1023) :=
  ⟨by decide, by decide, by decide, List.Pairwise.nil, by decide⟩

theorem witness_TransferOperandErrors :
    Config.reference.nbank ≤ ((2 : Bank) : Nat) ∧ ((1 : Bank) : Nat) < Config.reference.nbank ∧
      2 ^ Config.reference.K ≤ 1024 := by decide

theorem witness_UnwrittenReadsFault :
    ((1 : Bank) : Nat) < Config.reference.nbank ∧ 1023 < 2 ^ Config.reference.K ∧ State.reset.bufRead 1 1023 = none ∧
    10 ≤ Config.reference.K ∧ 1023 < 2 ^ 10 := by decide +kernel

theorem witness_WrittenOperandsNeverStop :
    filled.OperandsWritten (.ntt 0 4) ∧ filled.OperandsWritten (.fld 1 0 3) ∧ filled.OperandsWritten .nop := by
  refine ⟨?_, ?_, trivial⟩
  · change ∀ j < 4, (filled.bufRead 0 (0 + j)).isSome = true
    decide +kernel
  · change ∀ j < 1, (filled.bufRead 0 (3 + j)).isSome = true
    decide +kernel

theorem witness_RootTableContents : 1 < tiny.K ∧ 1 ≤ 1 ∧ 1 < 2 ^ 1 := by decide

theorem witness_BitReversalContents : 3 < 2 ^ tiny.K ∧ 1 < tiny.K ∧ 2 ≤ tiny.K ∧ 3 < 2 ^ 2 ∧ 0 ≤ tiny.K ∧ 0 < 2 ^ 0 := by
  decide

theorem witness_RbuildBuildsOnce : fresh.cvalid = false ∧ (after (exec .rbuild fresh)).cvalid = true := by decide +kernel

theorem witness_RrdReadsRoot :
    fresh.CacheOk ∧ (after (exec .rbuild fresh)).CacheOk ∧ 1 < fresh.cfg.K ∧ 1 < 2 ^ 1 :=
  ⟨fresh_cacheOk, built_cacheOk, by decide, by decide⟩

theorem witness_BrrdReadsReversal : fresh.CacheOk ∧ (after (exec .rbuild fresh)).CacheOk ∧ 3 < 2 ^ fresh.cfg.K :=
  ⟨fresh_cacheOk, built_cacheOk, by decide⟩

theorem witness_TableIndexErrors : 2 ^ tiny.K ≤ 4 := by decide

/-- The largest transform of the block `tiny`, and the smallest. -/
theorem witness_NttComputesForwardTransform :
    filled.CacheOk ∧ ((0 : Bank) : Nat) < filled.cfg.nbank ∧ 2 ≤ filled.cfg.K ∧ ([1, 2, 3, 4] : List Nat).length = 2 ^ 2 ∧
    (∀ x ∈ ([1, 2, 3, 4] : List Nat), x < filled.cfg.p) ∧
    (∀ j < 2 ^ 2, filled.bufRead (0 : Bank) j = ([1, 2, 3, 4] : List Nat)[j]?) ∧
    (∀ j < 2 ^ 0, filled.bufRead (0 : Bank) j = ([1] : List Nat)[j]?) :=
  ⟨filled_cacheOk, by decide, by decide, rfl, by decide, by decide +kernel, by decide +kernel⟩

theorem witness_InttComputesInverseTransform :
    filled.CacheOk ∧ ((0 : Bank) : Nat) < filled.cfg.nbank ∧ 2 ≤ filled.cfg.K ∧
    (∀ j < 2 ^ 2, filled.bufRead (0 : Bank) j = ([1, 2, 3, 4] : List Nat)[j]?) :=
  ⟨filled_cacheOk, by decide, by decide, by decide +kernel⟩

theorem witness_TransformsRoundTrip :
    filled.CacheOk ∧ ((0 : Bank) : Nat) < filled.cfg.nbank ∧ 2 ≤ filled.cfg.K ∧
    ∀ j < 2 ^ 2, ∃ v, filled.bufRead (0 : Bank) j = some v ∧ v < filled.cfg.p := by
  refine ⟨filled_cacheOk, by decide, by decide, fun j hj => ⟨j + 1, ?_⟩⟩
  revert j
  decide +kernel

theorem witness_PointwiseProductConvolves :
    2 ≤ tiny.K ∧ ([1, 2, 3, 0] : List Nat).length = 2 ^ 2 ∧ ([1, 1, 0, 16] : List Nat).length = 2 ^ 2 ∧
    (∀ v ∈ ([1, 2, 3, 0] : List Nat), v < tiny.p) ∧ ∀ v ∈ ([1, 1, 0, 16] : List Nat), v < tiny.p := by decide

theorem witness_ForwardTransformIsLinear :
    2 ≤ tiny.K ∧ ([1, 2, 3, 0] : List Nat).length = 2 ^ 2 ∧ ([1, 1, 0, 16] : List Nat).length = 2 ^ 2 := by decide

theorem witness_TransformOperandErrors :
    Config.reference.nbank ≤ ((2 : Bank) : Nat) ∧ ((1 : Bank) : Nat) < Config.reference.nbank ∧
    (∀ m, 0 ≠ 2 ^ m) ∧ (∃ m, 2048 = 2 ^ m) ∧ 2 ^ Config.reference.K < 2048 :=
  ⟨by decide, by decide, fun m h => by have : 0 < 2 ^ m := by positivity
                                       omega, ⟨11, by norm_num⟩, by decide⟩

theorem witness_CommandFrame : ∃ t, exec (.fadd 1 2 3) fresh = .next t :=
  ⟨_, rfl⟩

theorem witness_CommandRetiresOrRaises :
    (∃ t, exec (.fadd 1 2 3) fresh = .next t ∧ t.cs = .idle) ∧ ∃ t, exec (.finv 1 2) fresh = .next t ∧ t.cs = .halted :=
  ⟨⟨_, rfl, rfl⟩, ⟨_, rfl, rfl⟩⟩

/-- The host statements: reset not asserted, in each control state. -/
theorem witness_host_states :
    State.reset.inReset = false ∧ (∀ w0 w1, State.reset.cs ≠ .busy w0 w1) ∧
    (∃ w0 w1, (State.reset.withCommand 0 none).cs = .busy w0 w1) ∧ (State.reset.withCommand 0 none).inReset = false := by
  refine ⟨rfl, fun w0 w1 h => ?_, ⟨_, _, rfl⟩, rfl⟩
  cases h

theorem witness_StatusShowsState : State.reset.inReset = false := rfl

theorem witness_CtrlWrites :
    State.reset.inReset = false ∧ ({ State.reset with cs := .halted } : State).inReset = false := ⟨rfl, rfl⟩

theorem witness_RegistersReadTheirValues :
    State.reset.inReset = false ∧
    ∀ o ∈ ([0x10, 0x20, 0x24, 0x1C, 0x30, 0x3C, 0x60, 0xFC] : List (Fin 256)), (o : Nat) % 4 = 0 ∧
      ((o : Nat) = 0x10 ∨ (o : Nat) = 0x20 ∨ (o : Nat) = 0x24 ∨ (o : Nat) = 0x1C ∨
        (0x30 ≤ (o : Nat) ∧ (o : Nat) ≤ 0x3C) ∨ 0x60 ≤ (o : Nat)) := ⟨rfl, by decide +kernel⟩

theorem witness_FregReads :
    (regs 998244352 0).inReset = false ∧ ((0x48 : Fin 256) : Nat) = 0x40 + 4 * ((2 : Reg) : Nat) ∧
    ((0x40 : Fin 256) : Nat) = 0x40 + 4 * ((0 : Reg) : Nat) ∧ ((0x5C : Fin 256) : Nat) = 0x40 + 4 * ((7 : Reg) : Nat) ∧
    (∀ w0 w1, (regs 998244352 0).cs ≠ .busy w0 w1) ∧ (regs 998244352 0).reg 2 < (regs 998244352 0).cfg.p ∧
    ∃ w0 w1, (State.reset.withCommand 0 none).cs = .busy w0 w1 :=
  ⟨rfl, by decide, by decide, by decide, (fun w0 w1 h => by cases h), by decide +kernel, _, _, rfl⟩

/-- The last word of the last bank holds the largest residue, and BUFADDR names it. -/
def lastWord : State :=
  { State.reset.bufWrite 1 1023 998244352 with bufaddr := 0x100003FF }

/-- BUFDATA: a written word, an unwritten one, and the first address past each of the two ranges. -/
theorem witness_BufdataReads :
    lastWord.inReset = false ∧ (∀ w0 w1, lastWord.cs ≠ .busy w0 w1) ∧
    lastWord.bufaddr.toNat / 2 ^ 28 < lastWord.cfg.nbank ∧ lastWord.bufaddr.toNat % 2 ^ 28 < 2 ^ lastWord.cfg.K ∧
    lastWord.bufRead (lastWord.bufaddr.toNat / 2 ^ 28) (lastWord.bufaddr.toNat % 2 ^ 28) = some 998244352 ∧
    998244352 < lastWord.cfg.p ∧ State.reset.bufRead 0 0 = none ∧
    Config.reference.nbank ≤ (0x20000000 : Word32).toNat / 2 ^ 28 ∧
    2 ^ Config.reference.K ≤ (0x00000400 : Word32).toNat % 2 ^ 28 :=
  ⟨rfl, (fun w0 w1 h => by cases h), by decide +kernel, by decide +kernel, by decide +kernel, by decide +kernel, rfl,
    by decide +kernel, by decide +kernel⟩

theorem witness_BufdataWrites :
    lastWord.inReset = false ∧ (∀ w0 w1, lastWord.cs ≠ .busy w0 w1) ∧
    lastWord.bufaddr.toNat / 2 ^ 28 < lastWord.cfg.nbank ∧ lastWord.bufaddr.toNat % 2 ^ 28 < 2 ^ lastWord.cfg.K :=
  ⟨rfl, (fun w0 w1 h => by cases h), by decide +kernel, by decide +kernel⟩

theorem witness_CmdHiSubmits :
    ({ State.reset with cmdLo := 0x00000108 } : State).cmdLo.extractLsb' 0 8 = 0x08 ∧
    ({ State.reset with cmdLo := 0x00000107 } : State).cmdLo.extractLsb' 0 8 = 0x07 ∧
    State.reset.cmdLo.extractLsb' 0 8 ≠ 0x07 ∧ State.reset.cmdLo.extractLsb' 0 8 ≠ 0x08 ∧
    State.reset.cs = .idle ∧ State.reset.inReset = false ∧
    ({ State.reset with cs := .pend2 0x108 } : State).cs = .pend2 0x108 ∧
    ({ State.reset with cs := .halted } : State).cs = .halted := by decide +kernel

theorem witness_LatchAndIgnoredWrites :
    State.reset.inReset = false ∧ ((0x20 : Fin 256) : Nat) = 0x20 ∧ ((0x28 : Fin 256) : Nat) = 0x28 ∧
    ∀ o ∈ ([0x00, 0x0C, 0x14, 0x1C, 0x30, 0xFC] : List (Fin 256)), (o : Nat) % 4 = 0 ∧
      ((o : Nat) ≤ 0x0C ∨ ((0x14 ≤ (o : Nat)) ∧ (o : Nat) ≤ 0x1C) ∨ 0x30 ≤ (o : Nat)) :=
  ⟨rfl, rfl, rfl, by decide +kernel⟩

theorem witness_MalformedAccessRefused :
    ({ op := .read, offset := 0x0C, bytes := 2 } : HostAccess).bytes ≠ 4 ∧
    (({ op := .write 0, offset := 0x0D, bytes := 4 } : HostAccess).offset : Nat) % 4 ≠ 0 := by decide

theorem witness_ResetInput :
    (resetTurn true State.reset).inReset = true ∧ ((0x20 : Fin 256) : Nat) % 4 = 0 := by decide +kernel

theorem witness_BuildRefusesUnsupported :
    ¬ Params.WellFormed ⟨15, 2, 1, 2⟩ ∧ Params.WellFormed ⟨17, 3, 2, 2⟩ :=
  ⟨by decide +kernel, by decide +kernel⟩

theorem witness_ConfigurationIsFixed : step State.reset = .next State.reset := rfl

/-- Halted: a turn that keeps the state, and a CTRL write that clears it. -/
theorem witness_HaltedUntilCleared :
    ({ State.reset with cs := .halted } : State).cs = .halted ∧
    step { State.reset with cs := .halted } = .next { State.reset with cs := .halted } ∧
    (hosted (writeTurn 0x10 1) { State.reset with cs := .halted }).cs = .idle := ⟨rfl, rfl, rfl⟩

theorem witness_BusyUntilExecuted :
    (State.reset.withCommand 0 none).cs = .busy 0 none ∧
    ∃ t, step ((State.reset.withCommand 0 none).before (readTurn 0x0C)) = .next t := ⟨rfl, _, rfl⟩

/-- DROP set by each of the three, and cleared. -/
theorem witness_DropIsSticky :
    (hosted (writeTurn 0x24 0) (State.reset.withCommand 0 none)).drop = true ∧
    (hosted (writeTurn 0x2C 0) (State.reset.withCommand 0 none)).drop = true ∧
    (hosted (readTurn 0x2C) { State.reset with bufaddr := 0x20000000 }).drop = true ∧
    (hosted (writeTurn 0x10 2) { State.reset with drop := true }).drop = false := ⟨rfl, rfl, rfl, rfl⟩

theorem witness_CounterCountsRetiredCommands :
    step (({ State.reset with cmdcnt := 0xFFFFFFFF } : State).withCommand 0 none) = .next State.reset.nextEpoch := rfl

theorem witness_CacheBuiltOnce :
    (after (exec .rbuild fresh)).cvalid = true ∧ ∃ t, step (after (exec .rbuild fresh)) = .next t := ⟨rfl, _, rfl⟩

/-- The schedule that reads BUFDATA, takes some turns, and reads it again. -/
def rereads (between : List Turn) : State :=
  { State.reset with turns := readTurn 0x2C :: (between ++ readTurn 0x2C :: []) }

theorem witness_HostReadsHaveNoEffect :
    (∃ t, step (State.reset.before (readTurn 0x2C)) = .next t) ∧
    -- BUFDATA, then STATUS and an engine turn that finds no command, then BUFDATA again
    (∀ x ∈ [readTurn 0x0C, .engine], (∃ o, x = readTurn o) ∨ (x = .engine ∧ ∀ w0 w1, State.reset.cs ≠ .busy w0 w1)) ∧
    ∃ t u, Host.Core.run core 1 (rereads [readTurn 0x0C, .engine]) = .next t ∧
      Host.Core.run core 4 (rereads [readTurn 0x0C, .engine]) = .next u := by
  refine ⟨⟨_, rfl⟩, fun x hx => ?_, _, _, rfl, rfl⟩
  rcases List.mem_cons.mp hx with rfl | hx
  · exact .inl ⟨_, rfl⟩
  · exact .inr ⟨List.mem_singleton.mp hx, fun _ _ h => by cases h⟩

theorem witness_AcceptedCommandFinishes :
    (fresh.withCommand 0 none).Inv ∧ (fresh.withCommand 0 none).inReset = false ∧
    (fresh.withCommand 0 none).cs = .busy 0 none := by
  have h := witness_StepKeepsInvariant.1
  refine ⟨⟨h.regs, ⟨h.buffer.sorted, h.buffer.canonical, h.buffer.inBank⟩, h.cache, rfl, ⟨?_, h.error.code, h.error.high⟩,
    h.flags⟩, rfl, rfl⟩
  decide +kernel

end Sys2Proof.Tests
end

section
/-!
The configuration (R7, R8): a block is built exactly for the well-formed parameters, and no step changes them.
-/

namespace Sys2Proof

/-- R8: the check accepts exactly the well-formed parameters. -/
theorem Params.supported_iff {c : Params} : c.supported = true ↔ c.WellFormed :=
  decide_eq_true_iff

end Sys2Proof

namespace Sys2Proof.Machine

/-! ### Building a block -/

/-- R206 -/
theorem build_of_not_wellFormed {c : Params} (h : ¬ c.WellFormed) : build c = .refused .unsupportedModulus := by
  have hnone : Config.ofParams c = none := dif_neg (mt Params.supported_iff.mp h)
  rw [build, hnone]

theorem build_of_wellFormed {c : Params} (h : c.WellFormed) :
    build c = .next (State.resetFor { c with ok := Params.supported_iff.mpr h }) := by
  have hsome : Config.ofParams c = some { c with ok := Params.supported_iff.mpr h } :=
    dif_pos (Params.supported_iff.mpr h)
  rw [build, hsome]

/-- Settles O50: the two cases of R8's check. -/
theorem buildRefusesUnsupported : Obligations.BuildRefusesUnsupported := by
  unfold Obligations.BuildRefusesUnsupported
  intro c
  exact ⟨build_of_not_wellFormed, fun h => ⟨_, rfl, build_of_wellFormed h⟩⟩

/-! ### The configuration during a turn -/

/-- A host access that has a next state is a read, which changes the block as `hostRead` says or not at all, or a write, which
changes it as `hostWrite` says or only begins a new epoch. -/
theorem hostAccess_next_cases {a : HostAccess} {s t : State} (h : hostAccess a s = .next t) :
    a.legal = true ∧
      ((a.op = .read ∧ s.inReset = true ∧ t = State.answer (s.drawAt a.offset, s)) ∨
       (a.op = .read ∧ s.inReset = false ∧ t = State.answer (hostRead (hostRegAt a.offset) s)) ∨
       (∃ v, a.op = .write v ∧ s.inReset = true ∧ t = s.nextEpoch) ∨
       (∃ v, a.op = .write v ∧ s.inReset = false ∧ t = hostWrite (hostRegAt a.offset) v s.nextEpoch)) := by
  unfold hostAccess at h
  split at h
  · next hl =>
    refine ⟨hl, ?_⟩
    cases ho : a.op <;> cases hr : s.inReset <;> simpa [ho, hr, eq_comm] using h
  · cases h

@[simp] theorem State.answer_cfg (r : Word32 × State) : (State.answer r).cfg = r.2.cfg := rfl

@[simp] theorem hostRead_cfg (r : HostReg) (s : State) : (hostRead r s).2.cfg = s.cfg := by
  rcases hostRead_state r s with h | ⟨-, -, -, h⟩ <;> rw [h]

@[simp] theorem hostWrite_cfg (r : HostReg) (v : Word32) (s : State) : (hostWrite r v s).cfg = s.cfg := by
  rw [hostWrite_frame]

/-- R230: reset keeps the configuration. -/
@[simp] theorem resetTurn_cfg (b : Bool) (s : State) : (resetTurn b s).cfg = s.cfg := by
  unfold resetTurn
  split
  · rfl
  · split <;> rfl

theorem hostAccess_keeps_cfg {a : HostAccess} {s t : State} (h : hostAccess a s = .next t) : t.cfg = s.cfg := by
  obtain ⟨-, ⟨-, -, rfl⟩ | ⟨-, -, rfl⟩ | ⟨v, -, -, rfl⟩ | ⟨v, -, -, rfl⟩⟩ := hostAccess_next_cases h
  · rfl
  · simp
  · rfl
  · simp

theorem engineTurn_keeps_cfg {s t : State} (h : engineTurn s = .next t) : t.cfg = s.cfg := by
  obtain rfl | ⟨w0, w1, -, -, ⟨c, rfl⟩ | ⟨i, u, -, hu, rfl⟩⟩ := engineTurn_next_cases h
  · rfl
  · rfl
  · exact hu.same.1

/-- Settles O53: the engine's turn, a host access and the reset input each keep the configuration. -/
theorem configurationIsFixed : Obligations.ConfigurationIsFixed := by
  unfold Obligations.ConfigurationIsFixed
  intro s t h
  obtain ⟨-, hs⟩ | ⟨a, -, hs⟩ | ⟨b, -, hs⟩ := step_cases s <;> rw [hs] at h
  · exact (engineTurn_keeps_cfg h).trans s.nextTurns_cfg
  · exact (hostAccess_keeps_cfg h).trans s.nextTurns_cfg
  · injection h with h
    rw [← h, resetTurn_cfg, State.nextTurns_cfg]

end Sys2Proof.Machine
end

section
/-!
The command port and the engine (R38, R39, R44, R70 to R78): decoding an encoded command gives it back, the host's writes of a
word present it to the port, and the engine's turn executes what the port accepted.
-/

namespace Sys2Proof.Laws

/-! ### Decoding an encoded command -/

/-- R71, R75: every command's encoding has the opcode of its row, passes the row's test and has the row's number of words. -/
theorem encodesItsRow (i : Instr) : EncodesItsRow.Statement i := by
  cases i with
  | nop => exact EncodesItsRow.nop
  | fadd rd ra rb => exact EncodesItsRow.fadd rd ra rb
  | fsub rd ra rb => exact EncodesItsRow.fsub rd ra rb
  | fmul rd ra rb => exact EncodesItsRow.fmul rd ra rb
  | fneg rd ra => exact EncodesItsRow.fneg rd ra
  | finv rd ra => exact EncodesItsRow.finv rd ra
  | fdiv rd ra rb => exact EncodesItsRow.fdiv rd ra rb
  | fpow rd ra e => exact EncodesItsRow.fpow rd ra e
  | fseti rd v => exact EncodesItsRow.fseti rd v
  | fcmp ra rb => exact EncodesItsRow.fcmp ra rb
  | fld rd bk k => exact EncodesItsRow.fld rd bk k
  | fst ra bk k => exact EncodesItsRow.fst ra bk k
  | ntt bk n => exact EncodesItsRow.ntt bk n
  | intt bk n => exact EncodesItsRow.intt bk n
  | rbuild => exact EncodesItsRow.rbuild
  | rrd rd a => exact EncodesItsRow.rrd rd a
  | brrd rd k => exact EncodesItsRow.brrd rd k

/-- R78: a word that has an opcode of the table and passes its row's test is read by that row. -/
theorem decode_of_row {w0 : Word64} {w1 : Option Word64} {op : Opcode} (hop : opcField w0 = op.code)
    (hmask : w0 &&& op.mask = op.pattern) : decode w0 w1 = operands op w0 w1 := by
  simp [decode, hop, opcodeOf_code, hmask]

/-- R79: the payload of FPOW is its exponent. -/
theorem toNat_exponent {e : Nat} (h : ExponentFits e) : (BitVec.ofNat 64 e).toNat = e :=
  by
  rw [BitVec.toNat_ofNat, Nat.mod_eq_of_lt h]

/-- R79: the payload of FSETI is its value in two's complement. -/
theorem toInt_value {v : Int} (h : ValueFits v) : (BitVec.ofInt 64 v).toInt = v := by
  obtain ⟨hlo, hhi⟩ := h
  exact BitVec.toInt_ofInt_eq_self (by omega) (by omega) (by omega)

/-- R71, R72: the operands of an encoded command are read back, where they fit their fields. -/
theorem operands_encode {i : Instr} (h : i.WellFormed) : operands i.opcode i.firstWord i.payload = .ok i := by
  cases i with
  | fpow rd ra e =>
    have he : ExponentFits e := of_decide_eq_true h
    simp [operands, Instr.opcode, Instr.firstWord, Instr.payload, rdField_formatC, raField_formatC, toNat_exponent he,
      -BitVec.toNat_ofNat]
  | fseti rd v =>
    have hv : ValueFits v := of_decide_eq_true h
    simp [operands, Instr.opcode, Instr.firstWord, Instr.payload, rdField_formatC, toInt_value hv]
  | fld _ _ k | fst _ _ k | ntt _ k | intt _ k | rrd _ k | brrd _ k =>
    have hk : ImmFits k := of_decide_eq_true h
    simp [operands, Instr.opcode, Instr.firstWord, rdField_formatC, raField_formatC, bkField_formatC,
      immField_formatC _ _ _ _ _ _ hk]
  | nop | fadd | fsub | fmul | fneg | finv | fdiv | fcmp | rbuild =>
    simp [operands, Instr.opcode, Instr.firstWord, rdField_formatC, raField_formatC, rbField_formatC]

/-- R71, R73, R74, R75: decoding the words of a command that fits its fields gives the command back. -/
theorem decode_encode {i : Instr} (h : i.WellFormed) : decode i.firstWord i.payload = .ok i := by
  obtain ⟨hop, hmask, -⟩ := encodesItsRow i
  rw [decode_of_row hop hmask, operands_encode h]

end Sys2Proof.Laws

namespace Sys2Proof.Machine

/-! ### The engine's turn -/

/-- R44, R78: outside reset the engine's turn executes the accepted command in a new epoch of the draws. -/
theorem engineTurn_of_busy {s : State} {w0 : Word64} {w1 : Option Word64} (hr : s.inReset = false)
    (hc : s.cs = .busy w0 w1) : engineTurn s = execute w0 w1 s.nextEpoch := by
  simp [engineTurn, hr, hc]

theorem execute_of_decode {w0 : Word64} {w1 : Option Word64} {i : Instr} (h : decode w0 w1 = .ok i) (s : State) :
    execute w0 w1 s = exec i s := by
  rw [execute, h]

/-- R44, R78: the step that executes an accepted command. -/
theorem step_of_accepted {s : State} {w0 : Word64} {w1 : Option Word64} {i : Instr} (hr : s.inReset = false)
    (he : s.EngineNext) (hc : s.cs = .busy w0 w1) (hd : decode w0 w1 = .ok i) :
    step s = exec i s.nextTurns.nextEpoch := by
  rw [step_of_engineNext he, engineTurn_of_busy (s := s.nextTurns) hr hc, execute_of_decode hd]

/-- Settles O6: the engine's turn on a Busy state, and on a state that is not Busy. -/
theorem stepRunsDecodedCommand : Obligations.StepRunsDecodedCommand := by
  unfold Obligations.StepRunsDecodedCommand
  refine ⟨fun s w0 w1 i hr he hc hd => step_of_accepted hr he hc hd, fun s _ he hc => ?_⟩
  rw [step_of_engineNext he, engineTurn_of_not_busy (s := s.nextTurns) hc]
  rfl

/-! ### The command port -/

/-- The state after the writes of CMD_LO and CMD_HI, before the port looks at the word: cmd_lo holds the low half, the turns are
taken and two epochs of the draws have passed. -/
def State.presented (s : State) (w : Word64) (ts : List Turn) : State :=
  { s with cmdLo := w.extractLsb' 0 32, turns := ts, epoch := s.epoch + 2 }

/-- A state whose schedule starts with a turn is that turn before the rest. -/
theorem State.before_nextTurns {s : State} {t : Turn} {ts : List Turn} (h : s.turns = t :: ts) : s.nextTurns.before t = s := by
  cases s
  simp_all [State.before, State.nextTurns]

/-- R53: a run takes the host write that stands first in the schedule. -/
theorem run_of_writeTurn {s : State} {o : Fin 256} {v : Word32} {ts : List Turn} (k : Nat) (hr : s.inReset = false)
    (ho : (o : Nat) % 4 = 0) (ht : s.turns = writeTurn o v :: ts) :
    Host.Core.run core (k + 1) s = Host.Core.run core k (hostWrite (hostRegAt o) v s.nextTurns.nextEpoch) := by
  apply run_of_next
  rw [← step_write (s := s.nextTurns) hr ho, State.before_nextTurns ht]

/-- R38, R39: the two writes of a word present it to the command port. -/
theorem run_submitTurns {s : State} {w : Word64} {ts : List Turn} (k : Nat) (hr : s.inReset = false)
    (ht : s.turns = submitTurns w ++ ts) :
    Host.Core.run core (k + 2) s = Host.Core.run core k (submit w (s.presented w ts)) := by
  have hhalves : hostWrite .cmdHi (w.extractLsb' 32 32) (s.presented w ts) = submit w (s.presented w ts) := by
    change submit (w.extractLsb' 32 32 ++ w.extractLsb' 0 32) _ = _
    rw [Laws.append_halves]
  have hlo : s.nextTurns.turns = writeTurn 0x24 (w.extractLsb' 32 32) :: ts := by simp [ht, submitTurns]
  have hrest : s.presented w ts = { s.nextTurns.nextEpoch with cmdLo := w.extractLsb' 0 32 }.nextTurns.nextEpoch := by
    simp [State.presented, State.nextTurns, State.nextEpoch, ht, submitTurns]
  rw [run_of_writeTurn (o := 0x20) (k + 1) hr (by decide) ht, ← hhalves, hrest]
  exact run_of_writeTurn (o := 0x24) k hr (by decide) hlo

/-- R39: from Idle a word that is the whole command is accepted. -/
theorem submit_whole {s : State} {w : Word64} (hc : s.cs = .idle) (hn : needsPayload w = false) :
    submit w s = { s with cs := .busy w none } := by
  simp [submit, hc, hn]

/-- R39: from Idle the first word of a two-word command is held. -/
theorem submit_first {s : State} {w : Word64} (hc : s.cs = .idle) (hn : needsPayload w = true) :
    submit w s = { s with cs := .pend2 w } := by
  simp [submit, hc, hn]

/-- R39: the payload completes the held command. -/
theorem submit_payload {s : State} {w0 w : Word64} (hc : s.cs = .pend2 w0) :
    submit w s = { s with cs := .busy w0 (some w) } := by
  simp [submit, hc]

/-- R39: while Busy or Halted a presented word is discarded. -/
theorem submit_discards {s : State} {w : Word64} (hc : (∃ w0 w1, s.cs = .busy w0 w1) ∨ s.cs = .halted) :
    submit w s = { s with drop := true } := by
  rcases hc with ⟨w0, w1, hc⟩ | hc <;> simp [submit, hc]

/-- R39, R234: the state once a command's writes have been made from Idle: it is accepted. -/
def State.accepted (s : State) (i : Instr) (ts : List Turn) : State :=
  { s with
    cs := .busy i.firstWord i.payload
    cmdLo := (i.payload.getD i.firstWord).extractLsb' 0 32
    turns := ts
    epoch := s.epoch + (commandTurns i).length }

/-- R39, R234: from Idle the writes of a command's words, in order, make the port accept it. -/
theorem run_commandTurns {s : State} {i : Instr} {ts : List Turn} (k : Nat) (hr : s.inReset = false) (hc : s.cs = .idle)
    (ht : s.turns = commandTurns i ++ ts) :
    Host.Core.run core (k + (commandTurns i).length) s = Host.Core.run core k (s.accepted i ts) := by
  have hneeds := Laws.needsPayload_firstWord i
  rw [State.accepted]
  cases hp : i.payload with
  | none =>
    have hlen : (commandTurns i).length = 2 := by simp [commandTurns, hp, submitTurns]
    rw [hp] at hneeds
    rw [hlen, run_submitTurns k hr (by simpa [commandTurns, hp] using ht),
      submit_whole (s := s.presented i.firstWord ts) hc hneeds]
    rfl
  | some p =>
    have hlen : (commandTurns i).length = 4 := by simp [commandTurns, hp, submitTurns]
    rw [hp] at hneeds
    have hwords : s.turns = submitTurns i.firstWord ++ (submitTurns p ++ ts) := by simpa [commandTurns, hp] using ht
    rw [hlen, run_submitTurns (k + 2) hr hwords,
      submit_first (s := s.presented i.firstWord _) hc hneeds]
    exact run_submitTurns (s := { s.presented i.firstWord _ with cs := .pend2 i.firstWord }) k hr rfl

/-- Settles O7: the writes make the port accept the command, and the engine's turn executes what decoding its words gives, which
is the command. -/
theorem protocolRunsCommand : Obligations.ProtocolRunsCommand := by
  unfold Obligations.ProtocolRunsCommand
  intro s i rest hw hr hc ht
  have he : (s.accepted i (.engine :: rest)).EngineNext := .inr rfl
  rw [Nat.add_comm, run_commandTurns 1 hr hc ht, run_one]
  exact step_of_accepted (s := s.accepted i (.engine :: rest)) hr he rfl (Laws.decode_encode hw)

end Sys2Proof.Machine
end

section
/-!
What holds in every state that a run from reset reaches (R22, R26, R29, R36, R39, R46, R118): the invariant holds after reset, and
the engine's turn, a host access and the reset input each keep it.
-/

namespace Sys2Proof.Machine

/-! ### The error word (R36) -/

theorem errorWord_code (opc : BitVec 8) (c : Cause) : (errorWord opc c).extractLsb' 0 8 = causeCode c := by
  apply BitVec.eq_of_toNat_eq
  have h1 := (causeInfo c).isLt
  have h2 := (causeCode c).isLt
  rw [BitVec.extractLsb'_toNat, errorWord_toNat]
  omega

theorem errorWord_opc (opc : BitVec 8) (c : Cause) : (errorWord opc c).extractLsb' 16 8 = opc := by
  apply BitVec.eq_of_toNat_eq
  have h0 := opc.isLt
  have h1 := (causeInfo c).isLt
  have h2 := (causeCode c).isLt
  rw [BitVec.extractLsb'_toNat, errorWord_toNat, Nat.shiftRight_eq_div_pow]
  omega

theorem errorWord_high (opc : BitVec 8) (c : Cause) : (errorWord opc c).extractLsb' 24 8 = 0 := by
  apply BitVec.eq_of_toNat_eq
  have h0 := opc.isLt
  have h1 := (causeInfo c).isLt
  have h2 := (causeCode c).isLt
  rw [BitVec.extractLsb'_toNat, errorWord_toNat, Nat.shiftRight_eq_div_pow]
  change _ = 0
  omega

/-- R201: no command raises CODE 3, and CODE 0 is no error. -/
theorem causeCode_mem (c : Cause) : causeCode c ∈ ([1, 2, 4] : List (BitVec 8)) := by
  cases c <;> decide

theorem errorWord_ne_zero (opc : BitVec 8) (c : Cause) : errorWord opc c ≠ 0 := by
  intro h
  have hcode : causeCode c = 0 := by rw [← errorWord_code opc c, h]; rfl
  have hmem := causeCode_mem c
  rw [hcode] at hmem
  exact absurd hmem (by decide)

/-- R203, R206: an error leaves ERRCODE and the control state in agreement. -/
theorem State.raise_errorOk (s : State) (opc : BitVec 8) (c : Cause) : (s.raise opc c).ErrorOk where
  halted := ⟨fun _ => rfl, fun _ => errorWord_ne_zero opc c⟩
  code := by
    rw [State.raise_errcode, errorWord_code]
    exact List.mem_cons_of_mem _ (causeCode_mem c)
  high := errorWord_high opc c

/-! ### The parts of the invariant, where the fields they look at are as before -/

theorem State.RegsCanonical.of_eq {s t : State} (h : s.RegsCanonical) (hc : t.cfg = s.cfg) (hf : t.f = s.f) :
    t.RegsCanonical := fun i => by
  rw [State.reg_congr hf, hc]
  exact h i

theorem State.BufferOk.of_eq {s t : State} (h : s.BufferOk) (hc : t.cfg = s.cfg) (hb : t.buf = s.buf) : t.BufferOk where
  sorted := hb ▸ h.sorted
  canonical k v hv := hc ▸ h.canonical k v (hb ▸ hv)
  inBank k v hv := hc ▸ h.inBank k v (hb ▸ hv)

theorem State.CacheOk.of_eq {s t : State} (h : s.CacheOk) (hc : t.cfg = s.cfg) (hv : t.cvalid = s.cvalid)
    (hr : t.root = s.root) (hb : t.bitrev = s.bitrev) : t.CacheOk := by
  rw [State.CacheOk, hv, hr, hb, hc]
  exact h

theorem State.ErrorOk.of_eq {s t : State} (h : s.ErrorOk) (hc : t.cs = .halted ↔ s.cs = .halted)
    (he : t.errcode = s.errcode) : t.ErrorOk where
  halted := by rw [he, hc]; exact h.halted
  code := he ▸ h.code
  high := he ▸ h.high

/-- R35, R211: the state that a return from an error leaves. -/
theorem State.errorOk_of_cleared {s : State} (hc : s.cs ≠ .halted) (he : s.errcode = 0) : s.ErrorOk where
  halted := ⟨fun h => absurd he h, fun h => absurd h hc⟩
  code := by rw [he]; decide
  high := by rw [he]; rfl

theorem State.FlagsOk.of_eq {s t : State} (h : s.FlagsOk) (he : t.eq = s.eq) (hl : t.lt = s.lt) : t.FlagsOk := by
  rw [State.FlagsOk, he, hl]
  exact h

/-- The invariant looks at neither CMDCNT, DROP, the host's latches and the reset level nor the model's own fields. -/
theorem State.Inv.frame {s : State} (h : s.Inv) (n : Word32) (d : Bool) (lo ba : Word32) (r : Bool) (ts : List Turn)
    (x : Word32) (e : Nat) :
    ({ s with cmdcnt := n, drop := d, cmdLo := lo, bufaddr := ba, inReset := r, turns := ts, busRead := x, epoch := e } :
      State).Inv :=
  ⟨h.regs, h.buffer.of_eq rfl rfl, h.cache, h.control, h.error.of_eq .rfl rfl, h.flags⟩

/-! ### Reset -/

@[simp] theorem State.reg_resetFor (c : Config) (i : Reg) : (State.resetFor c).reg i = 0 := by
  simp [State.reg, State.resetFor]

/-- R47: no word of the buffer is written after reset. -/
@[simp] theorem State.bufRead_resetFor (c : Config) (b i : Nat) : (State.resetFor c).bufRead b i = none := rfl

/-- R27: after reset ROOT is not the built table, which has an entry. -/
theorem builtRoot_ne_nil (c : Config) : builtRoot c ≠ [] := by
  have := c.two_le_size
  rw [← List.length_pos_iff, builtRoot_length]
  omega

theorem State.resetFor_cacheOk (c : Config) : (State.resetFor c).CacheOk :=
  ⟨(fun h => by cases h), fun h => absurd h.1.symm (builtRoot_ne_nil c)⟩

theorem State.resetFor_inv (c : Config) : (State.resetFor c).Inv where
  regs i := by
    rw [State.reg_resetFor]
    exact c.p_pos
  buffer := ⟨.nil, (fun _ _ h => by cases h), (fun _ _ h => by cases h)⟩
  cache := State.resetFor_cacheOk c
  control := trivial
  error := State.errorOk_of_cleared (by simp [State.resetFor]) rfl
  flags h := by cases h.1

/-- Settles O48: the fields of the state after reset. -/
theorem resetValues : Obligations.ResetValues := by
  unfold Obligations.ResetValues
  intro c
  exact ⟨rfl, State.reg_resetFor c, rfl, rfl, rfl, rfl, rfl, rfl, rfl, State.bufRead_resetFor c, rfl, rfl⟩

/-- Settles O51: the parts of the invariant after reset. -/
theorem resetMeetsInvariant : Obligations.ResetMeetsInvariant := by
  unfold Obligations.ResetMeetsInvariant
  exact ⟨State.resetFor_inv, rfl⟩

/-! ### The engine's turn -/

theorem State.Inv.nextTurns {s : State} (h : s.Inv) : s.nextTurns.Inv :=
  h.frame ..

theorem State.Inv.nextEpoch {s : State} (h : s.Inv) : s.nextEpoch.Inv :=
  h.frame ..

/-- R118: a command leaves EQ and LT as they are, or as a comparison of two integers writes them. -/
theorem Effect.flagsOk {i : Instr} {s u : State} (h : Effect i s u) (hf : s.FlagsOk) : u.FlagsOk := by
  cases h with
  | flags ra rb =>
    simp only [State.FlagsOk, State.setFlags_eq, State.setFlags_lt, eqFlag, ltFlag, decide_eq_true_iff]
    omega
  | none | register | store => exact hf
  | build | table | transform => exact hf.of_eq (by simp) (by simp)

/-- R203: an error keeps the invariant. -/
theorem State.Inv.raise {s : State} (h : s.Inv) (opc : BitVec 8) (c : Cause) : (s.raise opc c).Inv :=
  ⟨h.regs, h.buffer.of_eq rfl rfl, h.cache, trivial, s.raise_errorOk opc c, h.flags⟩

/-- A command that retires from a state with no error keeps the invariant. -/
theorem Effect.retire_inv {i : Instr} {s u : State} (h : Effect i s u) (hi : s.Inv) (hc : s.cs ≠ .halted) : u.retire.Inv := by
  obtain ⟨-, herr, -⟩ := h.same
  have hzero : s.errcode = 0 := not_not.mp (mt hi.error.halted.mp hc)
  exact
    { regs := h.regs hi.regs hi.buffer hi.cache
      buffer := (h.buffer hi.regs hi.buffer).of_eq rfl rfl
      cache := h.cache hi.cache
      control := trivial
      error := State.errorOk_of_cleared (by simp) (herr.trans hzero)
      flags := h.flagsOk hi.flags }

theorem engineTurn_keeps_inv {s t : State} (h : engineTurn s = .next t) (hi : s.Inv) : t.Inv := by
  obtain rfl | ⟨w0, w1, -, hc, ⟨c, rfl⟩ | ⟨i, u, -, hu, rfl⟩⟩ := engineTurn_next_cases h
  · exact hi
  · exact hi.nextEpoch.raise _ _
  · exact hu.retire_inv hi.nextEpoch (by simp [hc])

/-! ### A host access -/

/-- R55, R57: a host read keeps the invariant, which looks at neither DROP nor what the host has read. -/
theorem hostRead_keeps_inv (r : HostReg) {s : State} (h : s.Inv) : (State.answer (hostRead r s)).Inv := by
  rw [State.answer]
  rcases hostRead_state r s with hs | ⟨-, -, -, hs⟩ <;> rw [hs] <;> exact h.frame ..

/-- R26, R41: a host write keeps the buffer's invariant: a BUFDATA write stores a residue in a word that exists. -/
theorem hostWrite_bufferOk (r : HostReg) (v : Word32) {s : State} (h : s.BufferOk) : (hostWrite r v s).BufferOk := by
  rcases hostWrite_buf r v s with hb | ⟨-, -, hbank, hindex, hs⟩
  · exact h.of_eq (hostWrite_cfg r v s) hb
  · rw [hs]
    exact h.bufWrite hbank hindex (Nat.mod_lt _ s.cfg.p_pos)

/-- R39: a host write leaves a held or accepted command with the words its opcode asks for. -/
theorem hostWrite_controlOk (r : HostReg) (v : Word32) {s : State} (h : ControlOk s.cs) : ControlOk (hostWrite r v s).cs := by
  obtain ⟨hc, -⟩ | ⟨-, -, -, hc, -⟩ | ⟨-, -, hc, -⟩ | ⟨-, -, ⟨-, hn, hc⟩ | ⟨-, hn, hc⟩ | ⟨w0, hs, hc⟩⟩ :=
    hostWrite_control r v s <;> rw [hc]
  · exact h
  · trivial
  · trivial
  · exact hn
  · exact hn.symm
  · rw [hs] at h
    exact h.symm

/-- R35, R206: a host write leaves ERRCODE and the control state in agreement. -/
theorem hostWrite_errorOk (r : HostReg) (v : Word32) {s : State} (h : s.ErrorOk) : (hostWrite r v s).ErrorOk := by
  obtain ⟨hc, he⟩ | ⟨-, -, -, hc, he⟩ | ⟨-, ⟨w0, hs⟩, hc, he⟩ |
    ⟨-, he, ⟨hs, -, hc⟩ | ⟨hs, -, hc⟩ | ⟨w0, hs, hc⟩⟩ := hostWrite_control r v s
  · exact h.of_eq (by rw [hc]) he
  · exact State.errorOk_of_cleared (by simp [hc]) he
  all_goals exact h.of_eq (by simp [hc, hs]) he

theorem hostWrite_keeps_inv (r : HostReg) (v : Word32) {s : State} (h : s.Inv) : (hostWrite r v s).Inv where
  regs := h.regs.of_eq (hostWrite_cfg r v s) (by rw [hostWrite_frame])
  buffer := hostWrite_bufferOk r v h.buffer
  cache := h.cache.of_eq (hostWrite_cfg r v s) (by rw [hostWrite_frame]) (by rw [hostWrite_frame])
    (by rw [hostWrite_frame])
  control := hostWrite_controlOk r v h.control
  error := hostWrite_errorOk r v h.error
  flags := h.flags.of_eq (by rw [hostWrite_frame]) (by rw [hostWrite_frame])

theorem hostAccess_keeps_inv {a : HostAccess} {s t : State} (h : hostAccess a s = .next t) (hi : s.Inv) : t.Inv := by
  obtain ⟨-, ⟨-, -, rfl⟩ | ⟨-, -, rfl⟩ | ⟨v, -, -, rfl⟩ | ⟨v, -, -, rfl⟩⟩ := hostAccess_next_cases h
  · exact hi.frame ..
  · exact hostRead_keeps_inv _ hi
  · exact hi.nextEpoch
  · exact hostWrite_keeps_inv _ v hi.nextEpoch

/-! ### The reset input -/

/-- R46, R230: the fields of the block are those of the state after reset. -/
theorem State.resetBlock_inv (s : State) : s.resetBlock.Inv :=
  (State.resetFor_inv s.cfg).frame ..

/-- R230: the reset input puts the block in the state of reset, with the input at its level, or leaves it alone. -/
theorem resetTurn_cases (b : Bool) (s : State) :
    resetTurn b s = { s.resetBlock with inReset := b } ∨ (b = false ∧ s.inReset = false ∧ resetTurn b s = s) := by
  unfold resetTurn
  cases b
  · cases hr : s.inReset
    · exact .inr ⟨rfl, rfl, by simp⟩
    · exact .inl rfl
  · exact .inl rfl

theorem resetTurn_keeps_inv (b : Bool) {s : State} (hi : s.Inv) : (resetTurn b s).Inv := by
  obtain hs | ⟨-, -, hs⟩ := resetTurn_cases b s <;> rw [hs]
  · exact s.resetBlock_inv.frame ..
  · exact hi

/-- Settles O52: the engine's turn, a host access and the reset input each keep the invariant. -/
theorem stepKeepsInvariant : Obligations.StepKeepsInvariant := by
  unfold Obligations.StepKeepsInvariant
  intro s t hi h
  obtain ⟨-, hs⟩ | ⟨a, -, hs⟩ | ⟨b, -, hs⟩ := step_cases s <;> rw [hs] at h
  · exact engineTurn_keeps_inv h hi.nextTurns
  · exact hostAccess_keeps_inv h hi.nextTurns
  · injection h with h
    exact h ▸ resetTurn_keeps_inv b hi.nextTurns

end Sys2Proof.Machine
end

section
/-!
What every command does and leaves alone (R22, R23, R25, R149, R182, R203), and when a command has a next state (R47, R168).
-/

namespace Sys2Proof.Machine

/-! ### What a command's effect leaves alone -/

/-- R22: a command writes no field register but the one its `rd` names. -/
theorem Effect.reg_other {i : Instr} {s u : State} (h : Effect i s u) {r : Reg} (hr : i.dest ≠ some r) :
    u.reg r = s.reg r := by
  have hne : ∀ {rd : Reg}, i.dest = some rd → r ≠ rd := fun hd e => hr (e ▸ hd)
  cases h with
  | none | flags | store => rfl
  | register rd v hd => exact s.reg_setReg_other v (hne hd)
  | build => exact s.reg_ensureCache r
  | table rd v hd => rw [State.reg_setReg_other _ v (hne hd), State.reg_ensureCache]
  | transform => exact State.reg_congr s.ensureCache_f r

/-- R25: only FCMP writes the flags. -/
theorem Effect.flags_other {i : Instr} {s u : State} (h : Effect i s u) (hi : ∀ ra rb, i ≠ .fcmp ra rb) :
    u.eq = s.eq ∧ u.lt = s.lt := by
  cases h with
  | flags ra rb he => exact absurd he (hi ra rb)
  | none | register | store => exact ⟨rfl, rfl⟩
  | build | table | transform => exact ⟨s.ensureCache_eq, s.ensureCache_lt⟩

/-- R165, R166: a transform stores to the first `n` words of its bank. -/
theorem stores_of_transform {i : Instr} {bk : Bank} {n : Nat} (h : i = .ntt bk n ∨ i = .intt bk n) :
    i.stores = some ((bk : Nat), 0, n) := by
  rcases h with rfl | rfl <;> rfl

/-- R165, R166, R181: a command writes no word of the buffer but those it stores to. -/
theorem Effect.buf_other {i : Instr} {s u : State} (h : Effect i s u) {key : Nat}
    (hk : ∀ b first n, i.stores = some (b, first, n) → ∀ j < n, key ≠ wordKey b (first + j)) :
    u.buf.read key = s.buf.read key := by
  cases h with
  | none | register | flags => rfl
  | build | table => simp
  | store ra bk k he =>
    have hne : key ≠ wordKey bk k := hk bk k 1 (by rw [he]; rfl) 0 (by omega)
    exact Memory.read_write_other _ _ hne
  | transform bk n a he _ _ _ ha =>
    have hout := hk bk 0 n (stores_of_transform he)
    obtain ⟨hlen, -⟩ := Memory.readRun_eq_some.mp ha
    rw [Memory.read_writeRun, if_neg]
    rintro ⟨hlo, hhi⟩
    have hwritten : key - wordKey bk 0 < n := by
      split at hhi <;> simp only [forwardOf_length, inverseOf_length, hlen] at hhi <;> omega
    apply hout _ hwritten
    rw [wordKey_add]
    omega

/-- R149: a command writes the tables and CVALID only where it uses the cache and CVALID is 0. -/
theorem Effect.tables_other {i : Instr} {s u : State} (h : Effect i s u) (hc : i.usesCache = false ∨ s.cvalid = true) :
    u.root = s.root ∧ u.bitrev = s.bitrev ∧ u.cvalid = s.cvalid := by
  have hvalid : i.usesCache = true → s.ensureCache = s := fun hu =>
    State.ensureCache_of_valid (hc.resolve_left (by simp [hu]))
  cases h with
  | none | register | flags | store => exact ⟨rfl, rfl, rfl⟩
  | build he => rw [hvalid (he ▸ rfl)]; exact ⟨rfl, rfl, rfl⟩
  | table rd v _ hu => rw [hvalid hu]; exact ⟨rfl, rfl, rfl⟩
  | transform bk n a he =>
    have hu : i.usesCache = true := by rcases he with rfl | rfl <;> rfl
    rw [hvalid hu]
    exact ⟨rfl, rfl, rfl⟩

/-- Settles O37: an error changes none of these, and a command that retires is its effect, which leaves them alone. -/
theorem commandFrame : Obligations.CommandFrame := by
  unfold Obligations.CommandFrame
  intro i s t h
  obtain ⟨c, rfl⟩ | ⟨u, hu, rfl⟩ := exec_next_cases h
  · simp
  · obtain ⟨hcfg, -, -, hdrop, -, hlo, haddr, hreset, hturns, hread, hepoch⟩ := hu.same
    exact ⟨fun r hr => hu.reg_other hr, hu.flags_other, fun key hk => hu.buf_other hk, hu.tables_other,
      hcfg, hdrop, hlo, haddr, hreset, hturns, hread, hepoch⟩

/-- Settles O38: the two outcomes of a command, and the fields of the error word. -/
theorem commandRetiresOrRaises : Obligations.CommandRetiresOrRaises := by
  unfold Obligations.CommandRetiresOrRaises
  intro i s t h
  obtain ⟨c, rfl⟩ | ⟨u, hu, rfl⟩ := exec_next_cases h
  · exact .inr ⟨errorWord i.opcode.code c, rfl, errorWord_high _ _, errorWord_opc _ _, errorWord_code _ c ▸ causeCode_mem c⟩
  · obtain ⟨-, herr, -, -, hcnt, -⟩ := hu.same
    exact .inl ⟨rfl, congrArg (· + 1) hcnt, herr⟩

/-! ### When a command has a next state -/

/-- R47, R180: FLD of an unwritten word that exists. -/
theorem execFld_unwritten {s : State} {rd : Reg} {bk : Bank} {i : Nat} (hb : (bk : Nat) < s.cfg.nbank) (hi : i < s.cfg.size)
    (hu : s.bufRead bk i = none) : execFld rd bk i s = .fault .unwrittenRead := by
  rw [execFld, wordCause_eq_none.mpr ⟨hb, hi⟩, hu]

/-- R47, R168: a transform of a legal size with an unwritten word among its operands. -/
theorem transform_unwritten {s : State} (op : Opcode) (steps : State → List Nat → List Nat) {bk : Bank} {m j : Nat}
    (hb : (bk : Nat) < s.cfg.nbank) (hm : m ≤ s.cfg.K) (hj : j < 2 ^ m) (hu : s.bufRead bk j = none) :
    transform op steps bk (2 ^ m) s = .fault .unwrittenRead := by
  have hcause : transformCause s.cfg bk (2 ^ m) = none :=
    transformCause_eq_none.mpr ⟨hb, isPowerOfTwo_iff.mpr ⟨m, rfl⟩, Nat.pow_le_pow_right (by omega) hm⟩
  have hrun : s.ensureCache.buf.readRun bk 0 (2 ^ m) = none := by
    rw [State.ensureCache_buf, ← Option.not_isSome_iff_eq_none, Memory.readRun_isSome]
    intro hall
    have hsome := hall j hj
    rw [Nat.zero_add] at hsome
    rw [State.bufRead] at hu
    simp [hu] at hsome
  rw [transform, hcause, hrun]

/-- Settles O23: FLD and the two transforms. -/
theorem unwrittenReadsFault : Obligations.UnwrittenReadsFault := by
  unfold Obligations.UnwrittenReadsFault
  exact ⟨fun s rd bk i hb hi hu => execFld_unwritten hb hi hu,
    fun s bk m j hb hm hj hu => ⟨transform_unwritten _ _ hb hm hj hu, transform_unwritten _ _ hb hm hj hu⟩⟩

/-- R47, R180: FLD stops only on an unwritten word. -/
theorem execFld_next {s : State} {bk : Bank} {i : Nat} (rd : Reg) (hw : (s.bufRead bk i).isSome = true) :
    ∃ t, execFld rd bk i s = .next t := by
  obtain ⟨v, hv⟩ := Option.isSome_iff_exists.mp hw
  rw [execFld]
  split
  · exact ⟨_, rfl⟩
  · rw [hv]
    exact ⟨_, rfl⟩

/-- R47, R168: a transform stops only on an unwritten word. -/
theorem transform_next {s : State} {bk : Bank} {n : Nat} (op : Opcode) (steps : State → List Nat → List Nat)
    (hw : ∀ j < n, (s.bufRead bk (0 + j)).isSome = true) : ∃ t, transform op steps bk n s = .next t := by
  obtain ⟨a, ha⟩ := Option.isSome_iff_exists.mp (Memory.readRun_isSome.mpr hw)
  rw [transform]
  split
  · exact ⟨_, rfl⟩
  · rw [State.ensureCache_buf, ha]
    exact ⟨_, rfl⟩

/-- Settles O24: a command that reads no buffer word always has a next state, and FLD and the transforms have one where the words
they read have been written. -/
theorem writtenOperandsNeverStop : Obligations.WrittenOperandsNeverStop := by
  unfold Obligations.WrittenOperandsNeverStop
  intro s i hw
  cases i with
  | fld rd bk k => exact execFld_next rd (hw 0 (by omega))
  | ntt bk n => exact transform_next _ _ hw
  | intt bk n => exact transform_next _ _ hw
  | nop | fadd | fsub | fmul | fneg | fpow | fseti | fcmp | rbuild => exact ⟨_, rfl⟩
  | finv | fdiv => simp only [exec, execFinv, execFdiv]; split <;> exact ⟨_, rfl⟩
  | fst | rrd | brrd => simp only [exec, execFst, execRrd, execBrrd]; split <;> exact ⟨_, rfl⟩

end Sys2Proof.Machine
end

section
/-!
The contents of the built tables (R27, R28, R140 to R144).
-/

namespace Sys2Proof.Config

/-- R141, R160: the powers of `ω_n = g^((p-1)/n) mod p` for `n = 2^l`, in the field. -/
theorem cast_omega_pow (c : Config) (l k : Nat) :
    (((c.g ^ ((c.p - 1) / 2 ^ l) % c.p) ^ k % c.p : Nat) : ZMod c.p) = c.unityRoot l ^ k := by
  simp [unityRoot]

/-- R141: a residue whose value in the field is a power of `ω_n` is that power modulo `p`. -/
theorem eq_omega_pow (c : Config) {l k a : Nat} (ha : a < c.p) (h : (a : ZMod c.p) = c.unityRoot l ^ k) :
    a = (c.g ^ ((c.p - 1) / 2 ^ l) % c.p) ^ k % c.p :=
  Machine.eq_of_cast_eq ha (Nat.mod_lt _ c.p_pos) (h.trans (c.cast_omega_pow l k).symm)

/-- R141: `ω_n^n = 1`. -/
theorem omega_pow (c : Config) {l : Nat} (h : l ≤ c.K) : (c.g ^ ((c.p - 1) / 2 ^ l) % c.p) ^ 2 ^ l % c.p = 1 :=
  (c.eq_omega_pow c.one_lt (by rw [c.unityRoot_pow h, Nat.cast_one])).symm

/-- R141: `ω_n^(n/2) = p - 1`. -/
theorem omega_half (c : Config) {l : Nat} (h : l < c.K) :
    (c.g ^ ((c.p - 1) / 2 ^ (l + 1)) % c.p) ^ 2 ^ l % c.p = c.p - 1 := by
  have hpos := c.p_pos
  refine (c.eq_omega_pow (by omega) ?_).symm
  rw [c.unityRoot_half h, Nat.cast_sub hpos]
  simp

end Sys2Proof.Config

namespace Sys2Proof.Machine

/-- R140, R141: `ROOT[L/2 + k]` of the built table, for `L = 2^(l+1)`, is `ω_L^k mod p`. -/
theorem rootAt_builtRoot_row (c : Config) {l k : Nat} (hl : l < c.K) (hk : k < 2 ^ l) :
    rootAt (builtRoot c) (2 ^ l + k) = (c.g ^ ((c.p - 1) / 2 ^ (l + 1)) % c.p) ^ k % c.p := by
  have hpos : 0 < 2 ^ l := by positivity
  have hsize : 2 ^ l + k < c.size := by
    have : 2 ^ (l + 1) ≤ c.size := Nat.pow_le_pow_right (by omega) hl
    rw [pow_succ] at this
    omega
  refine c.eq_omega_pow ?_ (cast_rootAt c hl hk)
  rw [rootAt_builtRoot c (by omega) hsize]
  exact fpow_lt c.one_lt _ _

/-- R140: each entry of a row is the one before times `ω_L`. -/
theorem rootAt_builtRoot_succ (c : Config) {l k : Nat} (hl : l < c.K) (hk : k + 1 < 2 ^ l) :
    rootAt (builtRoot c) (2 ^ l + (k + 1)) =
      rootAt (builtRoot c) (2 ^ l + k) * (c.g ^ ((c.p - 1) / 2 ^ (l + 1)) % c.p) % c.p := by
  rw [rootAt_builtRoot_row c hl hk, rootAt_builtRoot_row c hl (by omega), Nat.mod_mul_mod, pow_succ]

/-- Settles O25: the rows of the table, and the order of their roots. -/
theorem rootTableContents : Obligations.RootTableContents := by
  unfold Obligations.RootTableContents
  refine fun c => ⟨builtRoot_length c, fun l hl => ⟨?_, fun k h1 hk => ?_, c.omega_pow hl, c.omega_half hl⟩⟩
  · have h0 := rootAt_builtRoot_row c hl (k := 0) (by positivity)
    rwa [pow_zero, Nat.mod_eq_of_lt c.one_lt] at h0
  · obtain ⟨k, rfl⟩ := Nat.exists_eq_add_of_le' h1
    exact rootAt_builtRoot_succ c hl hk

/-- R143: the built table, scaled to `m` places. -/
theorem bitrevAt_builtBitrev_shift (c : Config) {m i : Nat} (hm : m ≤ c.K) (hi : i < 2 ^ m) :
    bitrevAt (builtBitrev c) i >>> (c.K - m) = bitReverse m i := by
  have hsize : i < c.size := lt_of_lt_of_le hi (Nat.pow_le_pow_right (by omega) hm)
  rw [bitrevAt_builtBitrev c hsize, bitReverse_shift hm]

/-- R142: the bits of a reversed number. -/
theorem testBit_bitReverse_of_lt {m j : Nat} (i : Nat) (h : j < m) : (bitReverse m i).testBit j = i.testBit (m - 1 - j) := by
  simp [testBit_bitReverse, h]

/-- Settles O26: the table's entries are reversals of `K` bits, and scaled, of `m` bits. -/
theorem bitReversalContents : Obligations.BitReversalContents := by
  unfold Obligations.BitReversalContents
  refine fun c => ⟨builtBitrev_length c, fun i hi => ?_, fun m hm i hi => ?_⟩
  · rw [bitrevAt_builtBitrev c hi]
    exact ⟨bitReverse_lt _ _, fun j hj => testBit_bitReverse_of_lt i hj⟩
  · rw [bitrevAt_builtBitrev_shift c hm hi]
    exact ⟨bitReverse_lt _ _, fun j hj => testBit_bitReverse_of_lt i hj⟩

end Sys2Proof.Machine
end

section
/-!
The host window (R30 to R43, R53 to R57): which register an offset names, what a read returns, what a write does.
-/

namespace Sys2Proof.Machine

/-! ### The offsets of the registers (R30) -/

theorem offset_of_ctrl {o : Fin 256} (h : hostRegAt o = .ctrl) : o = 0x10 := by revert o; decide +kernel

theorem offset_of_cmdLo {o : Fin 256} (h : hostRegAt o = .cmdLo) : o = 0x20 := by revert o; decide +kernel

theorem offset_of_cmdHi {o : Fin 256} (h : hostRegAt o = .cmdHi) : o = 0x24 := by revert o; decide +kernel

theorem offset_of_bufaddr {o : Fin 256} (h : hostRegAt o = .bufaddr) : o = 0x28 := by revert o; decide +kernel

theorem offset_of_bufdata {o : Fin 256} (h : hostRegAt o = .bufdata) : o = 0x2C := by revert o; decide +kernel

theorem hostRegAt_freg (i : Reg) : hostRegAt (0x40 + 4 * i) = .freg i := by revert i; decide

theorem hostRegAt_reserved {o : Nat} (h : o = 0x1C ∨ (0x30 ≤ o ∧ o ≤ 0x3C) ∨ 0x60 ≤ o) : hostRegAt o = .reserved := by
  unfold hostRegAt
  repeat rw [if_neg (by omega)]

/-! ### Reads -/

/-- The step of a read that changes nothing in the block. -/
theorem step_read_of_eq {s : State} {o : Fin 256} {v : Word32} (hr : s.inReset = false) (ho : (o : Nat) % 4 = 0)
    (h : hostRead (hostRegAt o) s = (v, s)) : step (s.before (readTurn o)) = .next { s with busRead := v } := by
  rw [step_read hr ho, h]
  rfl

/-- R22, R42: a residue is read as the 32-bit number that it is. -/
theorem toNat_residue (c : Config) {x : Nat} (h : x < c.p) : (BitVec.ofNat 32 x).toNat = x := by
  rw [BitVec.toNat_ofNat, Nat.mod_eq_of_lt (h.trans c.p_lt)]

/-- R31: the fields of CFG. -/
theorem toNat_cfgWord (c : Config) : (cfgWord c).toNat = 7 * 2 ^ 9 + (c.nbank - 1) * 2 ^ 5 + c.K := by
  have hK := c.K_le
  have hb := c.nbank_le
  rw [cfgWord, BitVec.toNat_append, BitVec.toNat_append, BitVec.toNat_append,
    ← Nat.shiftLeft_add_eq_or_of_lt (BitVec.isLt _), ← Nat.shiftLeft_add_eq_or_of_lt (BitVec.isLt _),
    ← Nat.shiftLeft_add_eq_or_of_lt (BitVec.isLt _)]
  simp only [Nat.shiftLeft_eq, BitVec.toNat_ofNat]
  omega

/-- Settles O40: each register by its own offset, and the offsets that read 0. -/
theorem registersReadTheirValues : Obligations.RegistersReadTheirValues := by
  unfold Obligations.RegistersReadTheirValues
  intro s hr
  have hp := s.cfg.p_lt
  have hg := s.cfg.g_primitive.2.1
  refine ⟨⟨_, step_read_of_eq hr (by decide) rfl, toNat_cfgWord s.cfg⟩,
    ⟨BitVec.ofNat 32 s.cfg.p, step_read_of_eq hr (by decide) rfl, ?_⟩,
    ⟨_, step_read_of_eq hr (by decide) rfl, toNat_residue s.cfg hg⟩, step_read_of_eq hr (by decide) rfl,
    step_read_of_eq hr (by decide) rfl, step_read_of_eq hr (by decide) rfl, fun o ho h => ?_⟩
  · rw [BitVec.toNat_ofNat, Nat.mod_eq_of_lt hp]
  · apply step_read_of_eq hr ho
    rcases h with h | h | h | h
    · rw [h]; rfl
    · rw [h]; rfl
    · rw [h]; rfl
    · rw [hostRegAt_reserved h]; rfl

/-! ### STATUS (R34) -/

theorem busyBit_iff {cs : ControlState} : busyBit cs = true ↔ ∃ w0 w1, cs = .busy w0 w1 := by
  cases cs <;> simp [busyBit]

theorem pend2Bit_iff {cs : ControlState} : pend2Bit cs = true ↔ ∃ w0, cs = .pend2 w0 := by
  cases cs <;> simp [pend2Bit]

theorem errBit_iff {cs : ControlState} : errBit cs = true ↔ cs = .halted := by
  cases cs <;> simp [errBit]

theorem getLsbD_append_ofBool {w : Nat} (x : BitVec w) (b : Bool) (j : Nat) :
    (x ++ BitVec.ofBool b).getLsbD j = if j = 0 then b else x.getLsbD (j - 1) := by
  rw [BitVec.getLsbD_append]
  cases j with
  | zero => simp
  | succ j => simp

/-- R34: STATUS, bit by bit. -/
theorem status_getLsbD (s : State) (j : Nat) :
    s.status.getLsbD j =
      ([busyBit s.cs, pend2Bit s.cs, errBit s.cs, s.drop, s.cvalid, s.eq, s.lt][j]?).getD false := by
  unfold State.status
  repeat rw [getLsbD_append_ofBool]
  rcases j with _ | _ | _ | _ | _ | _ | _ | j <;> simp

theorem status_resetFor (c : Config) : (State.resetFor c).status = 0 := by
  simp [State.status, State.resetFor, busyBit, pend2Bit, errBit]

/-- Settles O39: the bits of STATUS, its ignored write, and its value after reset. -/
theorem statusShowsState : Obligations.StatusShowsState := by
  unfold Obligations.StatusShowsState
  have hread : ∀ {s : State}, s.inReset = false → step (s.before (readTurn 0x0C)) = .next { s with busRead := s.status } :=
    fun hr => step_read_of_eq hr (by decide) rfl
  refine ⟨fun c => ?_, fun s v hr => step_write hr (by decide), fun s hr =>
    ⟨s.status, hread hr, ?_, ?_, ?_, ?_, ?_, ?_, ?_, fun j hj => ?_⟩⟩
  · rw [hread rfl, status_resetFor]
  all_goals rw [status_getLsbD]
  · exact busyBit_iff
  · exact pend2Bit_iff
  · exact errBit_iff
  · rfl
  · rfl
  · rfl
  · rfl
  · rw [List.getElem?_eq_none hj]
    rfl

/-! ### FREG0 to FREG7 (R42) -/

theorem readFreg_of_not_busy {s : State} (i : Reg) (hc : ∀ w0 w1, s.cs ≠ .busy w0 w1) :
    readFreg i s = (BitVec.ofNat 32 (s.reg i), s) := by
  unfold readFreg
  split
  · exact absurd ‹_› (hc _ _)
  all_goals rfl

theorem readFreg_of_busy {s : State} (i : Reg) (hc : ∃ w0 w1, s.cs = .busy w0 w1) :
    readFreg i s = (s.drawAt (fregOffset i), s) := by
  obtain ⟨w0, w1, hc⟩ := hc
  rw [readFreg, hc]

/-- Settles O41: the register, and the draw. -/
theorem fregReads : Obligations.FregReads := by
  unfold Obligations.FregReads
  intro s i o hr ho
  have hreg : hostRegAt o = .freg i := by rw [ho, hostRegAt_freg]
  have halign : (o : Nat) % 4 = 0 := by omega
  refine ⟨fun hc hlt => ⟨BitVec.ofNat 32 (s.reg i), step_read_of_eq hr halign ?_, toNat_residue s.cfg hlt⟩, fun hc =>
    step_read_of_eq hr halign ?_⟩ <;> rw [hreg]
  · exact readFreg_of_not_busy i hc
  · rw [ho]
    exact readFreg_of_busy i hc

/-! ### BUFADDR and BUFDATA (R40, R41, R56, R57) -/

theorem addrBank_eq (s : State) : s.addrBank = s.bufaddr.toNat / 2 ^ 28 := by
  have := s.bufaddr.isLt
  rw [State.addrBank, BitVec.extractLsb'_toNat, Nat.shiftRight_eq_div_pow]
  omega

theorem addrIndex_eq (s : State) : s.addrIndex = s.bufaddr.toNat % 2 ^ 28 := by
  rw [State.addrIndex, BitVec.extractLsb'_toNat, Nat.shiftRight_zero]

/-- R57: when BUFADDR names a word that exists. -/
theorem addrNamesWord_iff {s : State} :
    s.addrNamesWord = true ↔ s.bufaddr.toNat / 2 ^ 28 < s.cfg.nbank ∧ s.bufaddr.toNat % 2 ^ 28 < 2 ^ s.cfg.K := by
  rw [State.addrNamesWord, Bool.and_eq_true, decide_eq_true_iff, decide_eq_true_iff, addrBank_eq, addrIndex_eq, Config.size]

theorem addrNamesWord_eq_false_iff {s : State} :
    s.addrNamesWord = false ↔ s.cfg.nbank ≤ s.bufaddr.toNat / 2 ^ 28 ∨ 2 ^ s.cfg.K ≤ s.bufaddr.toNat % 2 ^ 28 := by
  rw [← Bool.not_eq_true, addrNamesWord_iff, not_and_or, not_lt, not_lt]

/-- R56: not Busy, a read of the word that BUFADDR names returns it if it is written, and a draw if it is not. -/
theorem readBufdata_of_word {s : State} (hc : ∀ w0 w1, s.cs ≠ .busy w0 w1) (ha : s.addrNamesWord = true) :
    readBufdata s =
      (((s.bufRead s.addrBank s.addrIndex).map (BitVec.ofNat 32)).getD (s.drawAt bufdataOffset), s) := by
  unfold readBufdata
  split
  · exact absurd ‹_› (hc _ _)
  all_goals
    rw [if_pos ha]
    cases s.bufRead s.addrBank s.addrIndex <;> rfl

/-- R57: not Busy, a read where BUFADDR names no word returns 0 and sets DROP. -/
theorem readBufdata_of_no_word {s : State} (hc : ∀ w0 w1, s.cs ≠ .busy w0 w1) (ha : s.addrNamesWord = false) :
    readBufdata s = (0, { s with drop := true }) := by
  unfold readBufdata
  split
  · exact absurd ‹_› (hc _ _)
  all_goals rw [if_neg (by simp [ha])]

theorem readBufdata_of_busy {s : State} (hc : ∃ w0 w1, s.cs = .busy w0 w1) :
    readBufdata s = (s.drawAt bufdataOffset, s) := by
  obtain ⟨w0, w1, hc⟩ := hc
  rw [readBufdata, hc]

/-- Settles O42: a word that exists, written or not, an address that names none, and Busy. -/
theorem bufdataReads : Obligations.BufdataReads := by
  unfold Obligations.BufdataReads
  rintro s b i hr rfl rfl
  refine ⟨fun hc hb hi => ⟨fun x hx hlt => ⟨BitVec.ofNat 32 x, ?_, toNat_residue s.cfg hlt⟩, fun hx => ?_⟩,
    fun hc hout => ?_, fun hc => step_read_of_eq hr (by decide) (readBufdata_of_busy hc)⟩
  · refine step_read_of_eq hr (by decide) ((readBufdata_of_word hc (addrNamesWord_iff.mpr ⟨hb, hi⟩)).trans ?_)
    rw [addrBank_eq, addrIndex_eq, hx]
    rfl
  · refine step_read_of_eq hr (by decide) ((readBufdata_of_word hc (addrNamesWord_iff.mpr ⟨hb, hi⟩)).trans ?_)
    rw [addrBank_eq, addrIndex_eq, hx]
    rfl
  · rw [step_read hr (by decide)]
    exact congrArg (fun r => Host.Outcome.next (State.answer r))
      (readBufdata_of_no_word hc (addrNamesWord_eq_false_iff.mpr hout))

/-! ### Writes -/

/-- R43: a write to a read-only register or a reserved offset changes nothing. -/
theorem hostWrite_ignored {o : Fin 256} (v : Word32) (s : State)
    (ho : (o : Nat) ≤ 0x0C ∨ (0x14 ≤ (o : Nat) ∧ (o : Nat) ≤ 0x1C) ∨ 0x30 ≤ (o : Nat)) :
    hostWrite (hostRegAt o) v s = s := by
  cases hreg : hostRegAt o with
  | ctrl => have := offset_of_ctrl hreg; omega
  | cmdLo => have := offset_of_cmdLo hreg; omega
  | cmdHi => have := offset_of_cmdHi hreg; omega
  | bufaddr => have := offset_of_bufaddr hreg; omega
  | bufdata => have := offset_of_bufdata hreg; omega
  | cfg | mod | gen | status | errcode | cmdcnt | freg | reserved => rfl

/-- Settles O46: the two latches, the ignored writes and the offsets that read 0. -/
theorem latchAndIgnoredWrites : Obligations.LatchAndIgnoredWrites := by
  unfold Obligations.LatchAndIgnoredWrites
  refine fun s o v hr ho => ⟨fun h => ?_, fun h => ?_, fun h => ?_, fun h => ?_⟩
  · rw [step_write hr ho, h]; rfl
  · rw [step_write hr ho, h]; rfl
  · rw [step_write hr ho, hostWrite_ignored v _ h]; rfl
  · apply step_read_of_eq hr ho
    rw [hostRegAt_reserved h]
    rfl

/-- Settles O44: CTRL's write is one update (`writeCtrl_eq`), and it reads 0. -/
theorem ctrlWrites : Obligations.CtrlWrites := by
  unfold Obligations.CtrlWrites
  intro s v hr
  refine ⟨step_read_of_eq hr (by decide) rfl, (step_write hr (by decide)).trans ?_⟩
  exact congrArg Host.Outcome.next (writeCtrl_eq v s.nextEpoch)

/-- R39, R70: FPOW and FSETI are the opcodes that a payload follows. -/
theorem needsPayload_iff {w : Word64} : needsPayload w = true ↔ opcField w = 0x07 ∨ opcField w = 0x08 := by
  unfold needsPayload
  cases ho : opcodeOf (opcField w) with
  | none =>
    have hne := Laws.opcodeOf_eq_none_iff.mp ho
    simpa using ⟨(hne .fpow).symm, (hne .fseti).symm⟩
  | some op =>
    rw [← Laws.code_of_opcodeOf ho]
    cases op <;> decide

/-- R38, R71: the opcode of a presented word is in the low half. -/
theorem opcField_append (h lo : Word32) : opcField (h ++ lo) = lo.extractLsb' 0 8 := by
  apply BitVec.eq_of_getLsbD_eq
  intro i hi
  have happ : (h ++ lo : Word64).getLsbD i = lo.getLsbD i := by
    rw [BitVec.getLsbD_append, if_pos (by omega)]
  simpa [opcField, hi] using happ

/-- Settles O45: the port in each control state. -/
theorem cmdHiSubmits : Obligations.CmdHiSubmits := by
  unfold Obligations.CmdHiSubmits
  intro s h hr
  have hstep : step (s.before (writeTurn 0x24 h)) = .next (submit (h ++ s.cmdLo) s.nextEpoch) :=
    step_write hr (by decide)
  have hneeds := needsPayload_iff (w := h ++ s.cmdLo)
  rw [opcField_append] at hneeds
  rw [hstep]
  refine ⟨step_read_of_eq hr (by decide) rfl, fun hc hop => ?_, fun hc h7 h8 => ?_, fun w0 hc => ?_, fun hc => ?_⟩
  · rw [submit_first (s := s.nextEpoch) hc (hneeds.mpr hop)]; rfl
  · have hone : needsPayload (h ++ s.cmdLo) = false :=
      Bool.not_eq_true _ ▸ mt hneeds.mp (not_or.mpr ⟨h7, h8⟩)
    rw [submit_whole (s := s.nextEpoch) hc hone]; rfl
  · rw [submit_payload (s := s.nextEpoch) hc]; rfl
  · rw [submit_discards (s := s.nextEpoch) hc]; rfl

end Sys2Proof.Machine
end

section
/-!
What a step can change of a command in progress (R39, R44), of DROP (R45) and of CMDCNT (R23).
-/

namespace Sys2Proof.Machine

/-! ### Busy -/

/-- R39, R54: while the engine is Busy a host write changes neither the accepted command and ERRCODE nor the buffer. -/
theorem hostWrite_of_busy (r : HostReg) (v : Word32) {s : State} {w0 : Word64} {w1 : Option Word64}
    (hc : s.cs = .busy w0 w1) :
    (hostWrite r v s).cs = s.cs ∧ (hostWrite r v s).errcode = s.errcode ∧ (hostWrite r v s).buf = s.buf := by
  have hbuf : (hostWrite r v s).buf = s.buf :=
    (hostWrite_buf r v s).resolve_right fun ⟨_, hnot, _⟩ => hnot w0 w1 hc
  obtain ⟨hcs, he⟩ | ⟨-, -, hs, -⟩ | ⟨-, ⟨w, hs⟩, -⟩ | ⟨-, -, ⟨hs, -⟩ | ⟨hs, -⟩ | ⟨w, hs, -⟩⟩ := hostWrite_control r v s
  · exact ⟨hcs, he, hbuf⟩
  all_goals cases hc.symm.trans hs

/-- Settles O55: a read changes none of these fields, and a write leaves the command to the engine. -/
theorem busyUntilExecuted : Obligations.BusyUntilExecuted := by
  unfold Obligations.BusyUntilExecuted
  intro s t w0 w1 a hc h
  rw [step_before] at h
  obtain ⟨-, ⟨-, -, rfl⟩ | ⟨-, -, rfl⟩ | ⟨v, -, -, rfl⟩ | ⟨v, -, -, rfl⟩⟩ := hostAccess_next_cases h
  · exact ⟨hc, rfl, rfl, rfl, rfl, rfl, rfl, rfl⟩
  · rw [State.answer]
    rcases hostRead_state (hostRegAt a.offset) s with hs | ⟨-, -, -, hs⟩ <;> rw [hs] <;>
      exact ⟨hc, rfl, rfl, rfl, rfl, rfl, rfl, rfl⟩
  · exact ⟨hc, rfl, rfl, rfl, rfl, rfl, rfl, rfl⟩
  · obtain ⟨hcs, he, hb⟩ := hostWrite_of_busy (hostRegAt a.offset) v (s := s.nextEpoch) hc
    refine ⟨hcs.trans hc, ?_, hb, ?_, he, ?_, ?_, ?_⟩ <;> rw [hostWrite_frame] <;> rfl

/-! ### DROP -/

/-- R53: a legal access is 32 bits wide. -/
theorem access_of_legal {a : HostAccess} (hl : a.legal = true) : a = { op := a.op, offset := a.offset, bytes := 4 } := by
  obtain ⟨op, offset, bytes⟩ := a
  obtain ⟨rfl, -⟩ : bytes = 4 ∧ _ := by simpa [HostAccess.legal] using hl
  rfl

theorem host_of_read {a : HostAccess} (hl : a.legal = true) (ho : a.op = .read) : Turn.host a = readTurn a.offset :=
  congrArg Turn.host ((access_of_legal hl).trans (by rw [ho]))

theorem host_of_write {a : HostAccess} {v : Word32} (hl : a.legal = true) (ho : a.op = .write v) :
    Turn.host a = writeTurn a.offset v :=
  congrArg Turn.host ((access_of_legal hl).trans (by rw [ho]))

theorem engineTurn_drop {s t : State} (h : engineTurn s = .next t) : t.drop = s.drop := by
  obtain rfl | ⟨w0, w1, -, -, ⟨c, rfl⟩ | ⟨i, u, -, hu, rfl⟩⟩ := engineTurn_next_cases h
  · rfl
  · rfl
  · obtain ⟨-, -, -, hd, -⟩ := hu.same
    exact hd

/-- R46, R230: reset clears DROP. -/
theorem resetTurn_drop (b : Bool) (s : State) : (resetTurn b s).drop = false ∨ (resetTurn b s).drop = s.drop := by
  obtain hs | ⟨-, -, hs⟩ := resetTurn_cases b s <;> rw [hs]
  · exact .inl rfl
  · exact .inr rfl

/-- R45: what a host access does to DROP: it leaves it, CLRDROP clears it, or a discarded access sets it. -/
theorem hostAccess_drop {a : HostAccess} {s t : State} (h : hostAccess a s = .next t) :
    t.drop = s.drop ∨
    (t.drop = false ∧ ∃ v, Turn.host a = writeTurn 0x10 v ∧ v.getLsbD 1 = true) ∨
    (t.drop = true ∧ ∃ v, Turn.host a = writeTurn 0x24 v ∧ ((∃ w0 w1, s.cs = .busy w0 w1) ∨ s.cs = .halted)) ∨
    (t.drop = true ∧ ∃ v, Turn.host a = writeTurn 0x2C v ∧ ∃ w0 w1, s.cs = .busy w0 w1) ∨
    (t.drop = true ∧ (Turn.host a = readTurn 0x2C ∨ ∃ v, Turn.host a = writeTurn 0x2C v) ∧ s.addrNamesWord = false) := by
  obtain ⟨hl, ⟨-, -, rfl⟩ | ⟨ho, -, rfl⟩ | ⟨v, -, -, rfl⟩ | ⟨v, ho, -, rfl⟩⟩ := hostAccess_next_cases h
  · exact .inl rfl
  · rw [State.answer, host_of_read hl ho]
    rcases hostRead_state (hostRegAt a.offset) s with hs | ⟨hreg, -, ha, hs⟩ <;> rw [hs]
    · exact .inl rfl
    · exact .inr (.inr (.inr (.inr ⟨rfl, .inl (by rw [offset_of_bufdata hreg]), ha⟩)))
  · exact .inl rfl
  · rw [host_of_write hl ho]
    obtain hd | ⟨hreg, hv, hd⟩ | ⟨hreg, hc, hd⟩ | ⟨hreg, hc | ha, hd⟩ := hostWrite_drop (hostRegAt a.offset) v s.nextEpoch
    · exact .inl hd
    · exact .inr (.inl ⟨hd, v, by rw [offset_of_ctrl hreg], hv⟩)
    · exact .inr (.inr (.inl ⟨hd, v, by rw [offset_of_cmdHi hreg], hc⟩))
    · exact .inr (.inr (.inr (.inl ⟨hd, v, by rw [offset_of_bufdata hreg], hc⟩)))
    · exact .inr (.inr (.inr (.inr ⟨hd, .inr ⟨v, by rw [offset_of_bufdata hreg]⟩, ha⟩)))

/-- Settles O56: the engine's turn leaves DROP, a host access changes it as `hostAccess_drop` says, and reset is reset. -/
theorem dropIsSticky : Obligations.DropIsSticky := by
  unfold Obligations.DropIsSticky
  intro s t h
  have hkept (hd : t.drop = s.drop) {P Q : Prop} :
      (s.drop = false → t.drop = true → P) ∧ (s.drop = true → t.drop = false → Q) := by
    rw [hd]
    cases s.drop <;> simp
  obtain ⟨-, hs⟩ | ⟨a, ht, hs⟩ | ⟨b, ht, hs⟩ := step_cases s <;> rw [hs] at h
  · exact hkept (engineTurn_drop (s := s.nextTurns) h)
  · obtain hd | ⟨hd, v, ha, hv⟩ | ⟨hd, v, ha, hc⟩ | ⟨hd, v, ha, hc⟩ | ⟨hd, ha, hn⟩ := hostAccess_drop h
    · exact hkept hd
    · exact ⟨by simp [hd], fun _ _ => .inl ⟨v, ht.trans (congrArg some ha), hv⟩⟩
    · exact ⟨fun _ _ => .inl ⟨v, ht.trans (congrArg some ha), hc⟩, by simp [hd]⟩
    · exact ⟨fun _ _ => .inr (.inl ⟨v, ht.trans (congrArg some ha), hc⟩), by simp [hd]⟩
    · refine ⟨fun _ _ => .inr (.inr ⟨?_, addrNamesWord_eq_false_iff.mp hn⟩), by simp [hd]⟩
      exact ha.imp (fun e => ht.trans (congrArg some e)) fun ⟨v, e⟩ => ⟨v, ht.trans (congrArg some e)⟩
  · injection h with h
    subst h
    rcases resetTurn_drop b s.nextTurns with hd | hd
    · exact ⟨by simp [hd], fun _ _ => .inr ⟨b, ht⟩⟩
    · exact hkept hd

/-! ### CMDCNT -/

theorem hostAccess_cmdcnt {a : HostAccess} {s t : State} (h : hostAccess a s = .next t) : t.cmdcnt = s.cmdcnt := by
  obtain ⟨-, ⟨-, -, rfl⟩ | ⟨-, -, rfl⟩ | ⟨v, -, -, rfl⟩ | ⟨v, -, -, rfl⟩⟩ := hostAccess_next_cases h
  · rfl
  · rw [State.answer]
    rcases hostRead_state (hostRegAt a.offset) s with hs | ⟨-, -, -, hs⟩ <;> rw [hs]
  · rfl
  · rw [hostWrite_frame]
    rfl

/-- R23: the engine's turn advances CMDCNT when it goes from Busy to Idle, and otherwise leaves it. -/
theorem engineTurn_cmdcnt {s t : State} (h : engineTurn s = .next t) :
    ((∃ w0 w1, s.cs = .busy w0 w1) ∧ t.cs = .idle ∧ t.cmdcnt = s.cmdcnt + 1) ∨
    (¬ ((∃ w0 w1, s.cs = .busy w0 w1) ∧ t.cs = .idle) ∧ t.cmdcnt = s.cmdcnt) := by
  obtain rfl | ⟨w0, w1, -, hc, ⟨c, rfl⟩ | ⟨i, u, -, hu, rfl⟩⟩ := engineTurn_next_cases h
  · refine .inr ⟨?_, rfl⟩
    rintro ⟨⟨w0, w1, hb⟩, hidle⟩
    cases hb.symm.trans hidle
  · exact .inr ⟨(fun ⟨_, hidle⟩ => by cases hidle), rfl⟩
  · obtain ⟨-, -, -, -, hcnt, -⟩ := hu.same
    exact .inl ⟨⟨w0, w1, hc⟩, rfl, congrArg (· + 1) hcnt⟩

/-- A turn of the host or the reset input is not the engine's. -/
theorem not_engineNext {s : State} {x : Turn} (h : s.turns.head? = some x) (hx : x ≠ .engine) : ¬ s.EngineNext := by
  rintro (he | he)
  · rw [he] at h
    cases h
  · exact hx (Option.some.inj (h.symm.trans he))

/-- Settles O57: the engine's turn counts the command that it retires, a host access counts nothing, and reset clears CMDCNT. -/
theorem counterCountsRetiredCommands : Obligations.CounterCountsRetiredCommands := by
  unfold Obligations.CounterCountsRetiredCommands
  intro s t h
  obtain ⟨he, hs⟩ | ⟨a, ht, hs⟩ | ⟨b, ht, hs⟩ := step_cases s <;> rw [hs] at h
  · obtain ⟨hb, hidle, hcnt⟩ | ⟨hno, hcnt⟩ := engineTurn_cmdcnt h
    · refine ⟨fun _ _ _ => ?_, fun hnot => absurd ⟨he, hb, hidle⟩ hnot⟩
      rw [hcnt, BitVec.toNat_add]
      rfl
    · exact ⟨fun _ hb hidle => absurd ⟨hb, hidle⟩ hno, fun _ => .inl hcnt⟩
  · exact ⟨fun he => absurd he (not_engineNext ht (by simp)), fun _ => .inl (hostAccess_cmdcnt (s := s.nextTurns) h)⟩
  · refine ⟨fun he => absurd he (not_engineNext ht (by simp)), fun _ => ?_⟩
    injection h with h
    subst h
    rcases resetTurn_cases b s.nextTurns with hb | ⟨-, -, hb⟩ <;> rw [hb]
    · exact .inr ⟨rfl, b, ht⟩
    · exact .inl rfl

end Sys2Proof.Machine
end

section
/-!
Accesses to the window (R53), what a BUFDATA write stores (R56, R57), and what the host's reads leave unchanged (R55).
-/

namespace Sys2Proof.Machine

/-! ### Malformed accesses (R53) -/

theorem hostAccess_of_malformed {a : HostAccess} (h : a.bytes ≠ 4 ∨ (a.offset : Nat) % 4 ≠ 0) (s : State) :
    hostAccess a s = .refused .hostAccessForm := by
  have hlegal : ¬ a.legal = true := by
    simpa [HostAccess.legal, ← not_and_or] using h
  rw [hostAccess, if_neg hlegal]

/-- Settles O47: a malformed access is not legal, whatever the state. -/
theorem malformedAccessRefused : Obligations.MalformedAccessRefused := by
  unfold Obligations.MalformedAccessRefused
  intro s a h
  rw [step_before]
  exact hostAccess_of_malformed h s

/-! ### BUFDATA writes (R56, R57) -/

theorem writeBufdata_of_word {s : State} (v : Word32) (hc : ∀ w0 w1, s.cs ≠ .busy w0 w1) (ha : s.addrNamesWord = true) :
    writeBufdata v s = s.bufWrite s.addrBank s.addrIndex (v.toNat % s.cfg.p) := by
  unfold writeBufdata
  split
  · exact absurd ‹_› (hc _ _)
  all_goals rw [if_pos ha]

/-- R56, R57: a write that is not taken, for want of a word that BUFADDR names or in the Busy state, sets DROP. -/
theorem writeBufdata_discards {s : State} (v : Word32) (h : (∃ w0 w1, s.cs = .busy w0 w1) ∨ s.addrNamesWord = false) :
    writeBufdata v s = { s with drop := true } := by
  unfold writeBufdata
  split
  · rfl
  all_goals
    next hc =>
    have ha : s.addrNamesWord = false := h.resolve_left (by simp [hc])
    rw [if_neg (by simp [ha])]

/-- Settles O43: a word that exists, an address that names none, and Busy. -/
theorem bufdataWrites : Obligations.BufdataWrites := by
  unfold Obligations.BufdataWrites
  rintro s v b i hr rfl rfl
  have hstep : step (s.before (writeTurn 0x2C v)) = .next (writeBufdata v s.nextEpoch) := step_write hr (by decide)
  obtain ⟨-, hread, -⟩ := bufdataReads s _ _ hr rfl rfl
  rw [hstep]
  refine ⟨fun hc hb hi => ⟨_, congrArg Host.Outcome.next ?_, Memory.read_write_same _ _ _, fun c j hj hne => ?_,
      fun key hkey => Memory.read_write_other _ _ hkey⟩,
    fun hc hout => ⟨hread hc hout, ?_⟩, fun hc => ?_⟩
  · rw [writeBufdata_of_word (s := s.nextEpoch) v hc (addrNamesWord_iff.mpr ⟨hb, hi⟩), addrBank_eq, addrIndex_eq]
    rfl
  · have hsize : 2 ^ s.cfg.K ≤ 2 ^ 27 := s.cfg.size_le
    exact Memory.read_write_word _ _ (by omega) (by omega) hne
  · rw [writeBufdata_discards (s := s.nextEpoch) v (.inr (addrNamesWord_eq_false_iff.mpr hout))]
    rfl
  · rw [writeBufdata_discards (s := s.nextEpoch) v (.inl hc)]
    rfl

/-! ### Host reads (R55) -/

theorem offset_of_status {o : Fin 256} (h : hostRegAt o = .status) : o = 0x0C := by revert o; decide +kernel

/-- R55, R230: the value that a host read of the register at an offset returns. -/
def State.readValue (s : State) (o : Fin 256) : Word32 :=
  if s.inReset then s.drawAt o else (hostRead (hostRegAt o) s).1

/-- The states that host reads and idle turns can lead to from `s`: what the last read returned, DROP and the turns to come may
be others, and all else is that of `s`. -/
def State.afterReads (s : State) (x : Word32) (d : Bool) (ts : List Turn) : State :=
  { s with busRead := x, drop := d, turns := ts }

theorem State.afterReads_self (s : State) : s.afterReads s.busRead s.drop s.turns = s := rfl

/-- A host read that has a next state answers `readValue` and changes no more than DROP, which only a BUFDATA read where BUFADDR
names no word sets. -/
theorem takeTurn_readTurn {s t : State} {o : Fin 256} (h : takeTurn (readTurn o) s = .next t) :
    ∃ d, t = s.afterReads (s.readValue o) d s.turns ∧
      (d = s.drop ∨
        (o = 0x2C ∧ s.readValue o = 0 ∧ (∀ w0 w1, s.cs ≠ .busy w0 w1) ∧ s.addrNamesWord = false)) := by
  obtain ⟨-, ⟨-, hr, rfl⟩ | ⟨-, hr, rfl⟩ | ⟨v, hw, -⟩ | ⟨v, hw, -⟩⟩ := hostAccess_next_cases h
  · exact ⟨s.drop, by rw [State.readValue, if_pos hr]; rfl, .inl rfl⟩
  · have hv : s.readValue o = (hostRead (hostRegAt o) s).1 := by rw [State.readValue, hr]; rfl
    rw [hv]
    rcases hostRead_state (hostRegAt o) s with hs | ⟨hreg, hc, ha, hs⟩
    · refine ⟨s.drop, ?_, .inl rfl⟩
      rw [State.answer, hs]
      rfl
    · rw [hs]
      exact ⟨true, rfl, .inr ⟨offset_of_bufdata hreg, rfl, hc, ha⟩⟩
  · cases hw
  · cases hw

/-- The turns to come play no part in the value of a read. -/
theorem hostRead_turns (r : HostReg) (s : State) (ts : List Turn) :
    (hostRead r { s with turns := ts }).1 = (hostRead r s).1 := by
  cases r
  case bufdata => exact (readBufdata_value _).trans (readBufdata_value s).symm
  case freg i =>
    simp only [hostRead, readFreg]
    split <;> rfl
  all_goals rfl

/-- R55: after reads and idle turns a read returns what it would have returned, a draw too; but for STATUS, which shows DROP. -/
theorem State.readValue_afterReads (s : State) {o : Fin 256} (x : Word32) {d : Bool} (ts : List Turn)
    (h : o = 0x0C → d = s.drop) : (s.afterReads x d ts).readValue o = s.readValue o := by
  have hread : (hostRead (hostRegAt o) (s.afterReads x d ts)).1 = (hostRead (hostRegAt o) s).1 :=
    calc (hostRead (hostRegAt o) (s.afterReads x d ts)).1
      _ = (hostRead (hostRegAt o) { s with turns := ts }).1 :=
        hostRead_value _ { s with turns := ts } x d fun hreg => h (offset_of_status hreg)
      _ = (hostRead (hostRegAt o) s).1 := hostRead_turns _ s ts
  rw [State.readValue, State.readValue, hread]
  rfl

/-- A step that takes a read from the schedule. -/
theorem step_readTurn {s t : State} {o : Fin 256} {ts : List Turn} (ht : s.turns = readTurn o :: ts) (h : step s = .next t) :
    ∃ d, t = s.afterReads (s.readValue o) d ts ∧ (o = 0x0C → d = s.drop) := by
  rw [step_of_turn (by rw [ht]; rfl)] at h
  obtain ⟨d, rfl, hd⟩ := takeTurn_readTurn h
  have hv : s.nextTurns.readValue o = s.readValue o := s.readValue_afterReads s.busRead s.turns.tail fun _ => rfl
  refine ⟨d, by rw [hv, State.nextTurns_turns, ht]; rfl, fun ho => ?_⟩
  rcases hd with hd | ⟨hbufdata, -⟩
  · exact hd
  · cases ho.symm.trans hbufdata

/-- R44, R55: a turn that reads, or gives the engine nothing to do, in the control state `cs`. -/
def Turn.IdleIn (cs : ControlState) (x : Turn) : Prop :=
  (∃ o, x = readTurn o) ∨ (x = .engine ∧ ∀ w0 w1, cs ≠ .busy w0 w1)

theorem step_idleTurn {s t : State} {x : Turn} {ts : List Turn} (hx : x.IdleIn s.cs) (ht : s.turns = x :: ts)
    (h : step s = .next t) : ∃ v d, t = s.afterReads v d ts := by
  rcases hx with ⟨o, rfl⟩ | ⟨rfl, hc⟩
  · obtain ⟨d, rfl, -⟩ := step_readTurn ht h
    exact ⟨_, d, rfl⟩
  · rw [step_of_engineNext (.inr (by rw [ht]; rfl)), engineTurn_of_not_busy (s := s.nextTurns) hc] at h
    injection h with h
    exact ⟨s.busRead, s.drop, by rw [← h, State.nextTurns, ht]; rfl⟩

/-- A run that answers a next state has a first step that does. -/
theorem exists_step_of_run_succ {s u : State} {k : Nat} (h : Host.Core.run core (k + 1) s = .next u) :
    ∃ t, step s = .next t ∧ Host.Core.run core k t = .next u := by
  cases hs : step s with
  | next t => exact ⟨t, rfl, (run_of_next k hs).symm.trans h⟩
  | fault f => cases (run_of_fault k hs).symm.trans h
  | refused r => cases (run_of_refused k hs).symm.trans h

/-- A run through reads and idle turns goes on from a state that only they can have changed. -/
theorem run_idleTurns {s u : State} {xs ts : List Turn} {k : Nat} (hxs : ∀ x ∈ xs, Turn.IdleIn s.cs x)
    (ht : s.turns = xs ++ ts) (h : Host.Core.run core (xs.length + k) s = .next u) :
    ∃ v d, Host.Core.run core k (s.afterReads v d ts) = .next u := by
  induction xs generalizing s with
  | nil =>
    rw [List.length_nil, Nat.zero_add] at h
    exact ⟨s.busRead, s.drop, by rwa [← List.nil_append ts, ← ht, State.afterReads_self]⟩
  | cons x xs ih =>
    rw [List.length_cons, Nat.add_right_comm] at h
    obtain ⟨t, hstep, hrun⟩ := exists_step_of_run_succ h
    obtain ⟨v, d, rfl⟩ := step_idleTurn (hxs x List.mem_cons_self) ht hstep
    exact ih (s := s.afterReads v d (xs ++ ts)) (fun y hy => hxs y (List.mem_cons_of_mem x hy)) rfl hrun

/-- Settles O59: one read by `takeTurn_readTurn`; and the second read of a register is a read after reads and idle turns. -/
theorem hostReadsHaveNoEffect : Obligations.HostReadsHaveNoEffect := by
  unfold Obligations.HostReadsHaveNoEffect
  refine ⟨fun s t o h => ?_, fun s t u o between rest ht hbetween hfirst hrun => ?_⟩
  · rw [step_before] at h
    obtain ⟨d, rfl, hd⟩ := takeTurn_readTurn h
    exact ⟨rfl, hd.imp_right fun ⟨ho, hv, hc, ha⟩ => ⟨ho, hv, hc, addrNamesWord_eq_false_iff.mp ha⟩⟩
  · rw [run_one] at hfirst
    rw [run_of_next _ hfirst] at hrun
    obtain ⟨d, rfl, hd⟩ := step_readTurn ht hfirst
    obtain ⟨v, d', hlast⟩ :=
      run_idleTurns (s := s.afterReads (s.readValue o) d (between ++ readTurn o :: rest)) hbetween rfl hrun
    rw [run_one] at hlast
    obtain ⟨d'', rfl, hd''⟩ := step_readTurn rfl hlast
    by_cases hsame : o = 0x0C → d'' = d
    · exact .inl (s.readValue_afterReads v _ fun ho => (hd'' ho).symm.trans ((hsame ho).trans (hd ho)))
    · exact .inr (Classical.not_imp.mp hsame)

end Sys2Proof.Machine
end

section
/-!
Strict decoding (R70 to R78): a word that decodes is the encoding of what it decodes to, and a word that does not decode raises
IllegalCommand when it runs; and the expansions of the pseudo-instructions (R80).
-/

namespace Sys2Proof.Laws

/-- Settles O1: `decode_encode`. -/
theorem decodeOfEncode : Obligations.DecodeOfEncode := by
  unfold Obligations.DecodeOfEncode
  exact fun _ h => decode_encode h

/-- Settles O3: the decoder evaluates on each of the words. -/
theorem sampleWordsDecode : Obligations.SampleWordsDecode := by
  unfold Obligations.SampleWordsDecode
  exact ⟨rfl, rfl, rfl, rfl, rfl, rfl⟩

/-! ### Words that decode -/

/-- R78: a word that decodes has an opcode of the table and only legal fields, and is read by its row. -/
theorem row_of_decode {w0 : Word64} {w1 : Option Word64} {i : Instr} (h : decode w0 w1 = .ok i) :
    ∃ op, opcField w0 = op.code ∧ ¬ FieldsIllegal op w0 ∧ operands op w0 w1 = .ok i := by
  unfold decode at h
  split at h
  · cases h
  · next op ho =>
    have hop : opcField w0 = op.code := (code_of_opcodeOf ho).symm
    split at h
    · cases h
    · next hmask => exact ⟨op, hop, (mask_test_iff hop).mp (not_not.mp hmask), h⟩

/-- R74: where an unused field is 0, leaving it out does not change it. -/
theorem ite_eq_of_unused {α : Type} [Zero α] {used : Bool} {x : α} (h : used = false → x = 0) :
    (if used then x else 0) = x := by
  cases used with
  | true => rfl
  | false => exact (h rfl).symm

/-- R71, R74: a legal word is made up of the fields that its opcode uses: its reserved bits and its other fields are 0. -/
theorem formatC_usedFields {op : Opcode} {w : Word64} (hop : opcField w = op.code) (hlegal : ¬ FieldsIllegal op w) :
    formatC op (if op.usesRd then rdField w else 0) (if op.usesRa then raField w else 0)
      (if op.usesRb then rbField w else 0) (if op.usesBk then bkField w else 0)
      (if op.usesImm then immField w else 0) = w := by
  simp only [FieldsIllegal, not_or, not_and, not_not, getLsbD_eq_div, decide_eq_true_iff] at hlegal
  obtain ⟨h11, h15, h19, hres, hrd, hra, hrb, hbk, himm⟩ := hlegal
  have hw := w.isLt
  have hopc : w.toNat % 256 = op.code.toNat := by rw [← opcField_toNat, hop]
  have hres : w.toNat / 2 ^ 24 % 2 ^ 8 = 0 := by rw [← toNat_extract, hres]; rfl
  have hfields : formatC op (rdField w) (raField w) (rbField w) (bkField w) (immField w) = w := by
    apply BitVec.eq_of_toNat_eq
    rw [toNat_formatC, rdField_val, raField_val, rbField_val, bkField_val, immField_eq]
    omega
  rw [ite_eq_of_unused hrd, ite_eq_of_unused hra, ite_eq_of_unused hrb, ite_eq_of_unused hbk, ite_eq_of_unused himm, hfields]

/-- R73: an `imm` fits its field. -/
theorem immField_fits (w : Word64) : ImmFits (immField w) :=
  (w.extractLsb' 32 32).isLt

theorem exponentFits_toNat (p : Word64) : ExponentFits p.toNat :=
  p.isLt

theorem valueFits_toInt (p : Word64) : ValueFits p.toInt :=
  ⟨p.le_toInt, p.toInt_lt⟩

/-- R79: the operands that a row reads fit their fields. -/
theorem wellFormed_of_operands {op : Opcode} {w0 : Word64} {w1 : Option Word64} {i : Instr}
    (h : operands op w0 w1 = .ok i) : i.WellFormed := by
  cases op with
  | fpow =>
    cases w1 <;> cases h
    exact decide_eq_true (exponentFits_toNat _)
  | fseti =>
    cases w1 <;> cases h
    exact decide_eq_true (valueFits_toInt _)
  | fld | fst | ntt | intt | rrd | brrd =>
    cases h
    exact decide_eq_true (immField_fits w0)
  | nop | fadd | fsub | fmul | fneg | finv | fdiv | fcmp | rbuild =>
    cases h
    rfl

/-- R71, R75: the command that a row reads from a legal word has that word as its first word. -/
theorem firstWord_of_operands {op : Opcode} {w0 : Word64} {w1 : Option Word64} {i : Instr} (hop : opcField w0 = op.code)
    (hlegal : ¬ FieldsIllegal op w0) (h : operands op w0 w1 = .ok i) : i.firstWord = w0 := by
  have hw := formatC_usedFields hop hlegal
  cases op with
  | fpow | fseti =>
    cases w1 <;> cases h
    exact hw
  | nop | fadd | fsub | fmul | fneg | finv | fdiv | fcmp | fld | fst | ntt | intt | rbuild | rrd | brrd =>
    cases h
    exact hw

/-- R72: the command that a row reads has the payload it was read with. -/
theorem payload_of_operands {op : Opcode} {w0 : Word64} {w1 : Option Word64} {i : Instr} (hp : w1.isSome = op.hasPayload)
    (h : operands op w0 w1 = .ok i) : i.payload = w1 := by
  cases w1 with
  | none => cases op <;> cases h <;> rfl
  | some p =>
    cases op with
    | fpow | fseti =>
      cases h
      simp [Instr.payload]
    | _ => cases hp

/-- Settles O2: the row that reads the word gives the command's ranges, its first word and its payload. -/
theorem encodeOfDecode : Obligations.EncodeOfDecode := by
  unfold Obligations.EncodeOfDecode
  intro w0 w1 i hp hd
  obtain ⟨op, hop, hlegal, hread⟩ := row_of_decode hd
  have hneeds : needsPayload w0 = op.hasPayload := by rw [needsPayload, hop, opcodeOf_code]
  exact ⟨wellFormed_of_operands hread,
    Prod.ext (firstWord_of_operands hop hlegal hread) (payload_of_operands (hp.trans hneeds) hread)⟩

/-! ### Words that do not decode -/

/-- R77: the opcodes of the table lie outside the four illegal ranges. -/
theorem opcodeOf_eq_none_of_illegal {b : BitVec 8}
    (h : (0x0A ≤ b.toNat ∧ b.toNat ≤ 0x0F) ∨ (0x12 ≤ b.toNat ∧ b.toNat ≤ 0x1F) ∨
      (0x22 ≤ b.toNat ∧ b.toNat ≤ 0x2F) ∨ 0x33 ≤ b.toNat) : opcodeOf b = none := by
  refine opcodeOf_eq_none_iff.mpr fun op hop => ?_
  subst hop
  cases op <;> exact absurd h (by decide)

theorem decode_of_illegalOpcode {w0 : Word64} (h : opcodeOf (opcField w0) = none) (w1 : Option Word64) :
    decode w0 w1 = .error .illegalOpcode := by
  rw [decode, h]

/-- R74, R78: a reserved bit or unused field is checked before the operands and the payload are looked at. -/
theorem decode_of_fieldsIllegal {op : Opcode} {w0 : Word64} (hop : opcField w0 = op.code) (h : FieldsIllegal op w0)
    (w1 : Option Word64) : decode w0 w1 = .error .illegalField := by
  have hmask : w0 &&& op.mask ≠ op.pattern := mt (mask_test_iff hop).mp (not_not.mpr h)
  simp [decode, hop, opcodeOf_code, hmask]

end Sys2Proof.Laws

namespace Sys2Proof.Machine

/-- R44: the step of the engine when it is Busy. -/
theorem step_of_busy {s : State} {w0 : Word64} {w1 : Option Word64} (hr : s.inReset = false) (he : s.EngineNext)
    (hc : s.cs = .busy w0 w1) : step s = execute w0 w1 s.nextTurns.nextEpoch := by
  rw [step_of_engineNext he, engineTurn_of_busy (s := s.nextTurns) hr hc]

theorem execute_of_illegalOpcode {w0 : Word64} {w1 : Option Word64} (h : decode w0 w1 = .error .illegalOpcode)
    (s : State) : execute w0 w1 s = .next (s.raise (opcField w0) .illegalOpcode) := by
  rw [execute, h]

theorem execute_of_illegalField {w0 : Word64} {w1 : Option Word64} (h : decode w0 w1 = .error .illegalField)
    (s : State) : execute w0 w1 s = .next (s.raise (opcField w0) .illegalField) := by
  rw [execute, h]

/-- Settles O4: no row has the opcode, so the engine raises INFO 1. -/
theorem illegalOpcodeRaises : Obligations.IllegalOpcodeRaises := by
  unfold Obligations.IllegalOpcodeRaises
  intro s w0 w1 hr he hc hopc
  have hd := Laws.decode_of_illegalOpcode (Laws.opcodeOf_eq_none_of_illegal hopc) w1
  rw [step_of_busy hr he hc, execute_of_illegalOpcode hd]
  rfl

/-- Settles O5: the word fails its row's test, so the engine raises INFO 2. -/
theorem illegalFieldRaises : Obligations.IllegalFieldRaises := by
  unfold Obligations.IllegalFieldRaises
  intro s op w0 w1 hr he hc hop hfields
  have hd := Laws.decode_of_fieldsIllegal hop hfields w1
  rw [step_of_busy hr he hc, execute_of_illegalField hd, opcField, hop]
  rfl

/-! ### Pseudo-instructions (R80) -/

/-- R23: writing a register and retiring, for a value in another form. -/
theorem next_setReg_retire {s : State} {rd : Reg} {x v : Nat} (h : x = v) :
    (.next (s.setReg rd x).retire : Host.Outcome State Fault Refusal) =
      .next { s with f := s.f.set rd v, cmdcnt := s.cmdcnt + 1, cs := .idle } := by
  subst h
  rfl

/-- R106: the first power of a residue is the residue. -/
theorem fpow_one {p a : Nat} (hp : 1 < p) (ha : a < p) : fpow p a 1 = a := by
  rw [fpow_eq hp, pow_one, Nat.mod_eq_of_lt ha]

/-- R100: a residue is its own reduction. -/
theorem reduce_of_lt {p a : Nat} (h : a < p) : reduce p a = a := by
  rw [reduce, ← Int.natCast_mod, Int.toNat_natCast, Nat.mod_eq_of_lt h]

/-- R80: the lengths and exponents that `froot` names a root for. -/
theorem expand_froot {c : Config} (rd : Reg) {l k : Nat} (hl : 1 ≤ l) (hK : l ≤ c.K) (hk : k < 2 ^ l / 2) :
    expand c (.froot rd (2 ^ l) k) = some (.rrd rd (2 ^ l / 2 + k)) :=
  if_pos ⟨isPowerOfTwo_iff.mpr ⟨l, rfl⟩, Nat.le_self_pow (by omega) 2,
    Nat.pow_le_pow_right two_pos hK, hk⟩

/-- R80: `froot` is refused for every other length and exponent. -/
theorem expand_froot_refused {c : Config} (rd : Reg) {L k : Nat}
    (h : (∀ l, L ≠ 2 ^ l) ∨ L < 2 ∨ 2 ^ c.K < L ∨ L / 2 ≤ k) : expand c (.froot rd L k) = none := by
  refine if_neg fun ⟨hpow, h2, hsize, hk⟩ => ?_
  obtain ⟨l, hl⟩ := isPowerOfTwo_iff.mp hpow
  rcases h with h | h | h | h
  · exact h l hl
  · exact absurd h2 (Nat.not_le.mpr h)
  · exact absurd hsize (Nat.not_le.mpr h)
  · exact absurd hk (Nat.not_lt.mpr h)

/-- Settles O19: the value that each expansion writes, and the two cases of `froot`. -/
theorem pseudoInstructionsExpand : Obligations.PseudoInstructionsExpand := by
  unfold Obligations.PseudoInstructionsExpand
  refine ⟨fun s rd ra ha => ⟨⟨_, rfl, ?fmov⟩, ⟨_, rfl, ?fsqr⟩, ⟨_, rfl, ?fdbl⟩⟩,
    fun s rd => ⟨⟨_, rfl, ?fzero⟩, ⟨_, rfl, ?fone⟩⟩,
    fun c rd l k => expand_froot rd, fun c rd L k => expand_froot_refused rd⟩
  case fmov => exact next_setReg_retire (fpow_one s.cfg.one_lt ha)
  case fsqr => exact next_setReg_retire (by rw [fmul, pow_two])
  case fdbl => exact next_setReg_retire (by rw [fadd, two_mul])
  case fzero => exact next_setReg_retire (reduce_of_lt s.cfg.p_pos)
  case fone => exact next_setReg_retire (reduce_of_lt s.cfg.one_lt)

end Sys2Proof.Machine
end

section
/-!
The commands of the field unit (R100 to R119): the value that each writes, as integers and as residues, and the errors of the
two commands that invert.
-/

namespace Sys2Proof.Machine

/-! ### The field functions on residues (R101 to R105) -/

/-- R101: one subtraction of `p` reduces the sum of two residues. -/
theorem fadd_of_lt {p a b : Nat} (ha : a < p) (hb : b < p) : fadd p a b = if a + b < p then a + b else a + b - p := by
  unfold fadd
  split
  · next hlt => exact Nat.mod_eq_of_lt hlt
  · next hge => rw [Nat.mod_eq_sub_mod (by omega), Nat.mod_eq_of_lt (by omega)]

/-- R102: one addition of `p` reduces the difference of two residues. -/
theorem coe_fsub_of_lt {p a b : Nat} (ha : a < p) (hb : b < p) :
    ((fsub p a b : Nat) : Int) = if b ≤ a then (a : Int) - b else (a : Int) - b + p := by
  rw [fsub, coe_reduce (by omega)]
  split
  · exact Int.emod_eq_of_lt (by omega) (by omega)
  · rw [← Int.add_emod_right, Int.emod_eq_of_lt (by omega) (by omega)]

/-- R104: the negative of 0 is 0, and of another residue its difference from `p`. -/
theorem fneg_of_lt {p a : Nat} (ha : a < p) : fneg p a = if a = 0 then 0 else p - a := by
  rw [← Int.natCast_inj, fneg, coe_reduce (by omega)]
  split
  · next h0 => simp [h0]
  · rw [Int.emod_eq_of_lt (by omega) (by omega)]
    omega

/-- R105: a residue other than 0 times its Fermat inverse is 1. -/
theorem mul_finv_mod (c : Config) {a : Nat} (ha : a < c.p) (h0 : a ≠ 0) : a * finv c.p a % c.p = 1 := by
  have : Fact (Nat.Prime c.p) := ⟨c.prime⟩
  have hne : (a : ZMod c.p) ≠ 0 :=
    mt (ZMod.natCast_eq_zero_iff a c.p).mp (Nat.not_dvd_of_pos_of_lt (by omega) ha)
  apply eq_of_cast_eq (Nat.mod_lt _ c.p_pos) c.one_lt
  rw [ZMod.natCast_mod, Nat.cast_mul, cast_finv c hne, mul_inv_cancel₀ hne, Nat.cast_one]

/-- R105: the quotient times the divisor is the dividend. -/
theorem fmul_finv_mul_mod (c : Config) {a b : Nat} (ha : a < c.p) (hb : b < c.p) (h0 : b ≠ 0) :
    fmul c.p a (finv c.p b) * b % c.p = a := by
  calc fmul c.p a (finv c.p b) * b % c.p
      = a * (b * finv c.p b % c.p) % c.p := by
        rw [fmul, Nat.mod_mul_mod, Nat.mul_mod_mod, mul_assoc, mul_comm b]
    _ = a := by rw [mul_finv_mod c hb h0, mul_one, Nat.mod_eq_of_lt ha]

/-! ### The two commands that invert (R114, R115) -/

theorem execFinv_of_zero {s : State} {ra : Reg} (rd : Reg) (h : s.reg ra = 0) :
    execFinv rd ra s = .next (s.raise Opcode.finv.code .inverseOfZero) :=
  if_pos h

theorem execFinv_of_ne_zero {s : State} {ra : Reg} (rd : Reg) (h : s.reg ra ≠ 0) :
    execFinv rd ra s = .next (s.setReg rd (finv s.cfg.p (s.reg ra))).retire :=
  if_neg h

theorem execFdiv_of_zero {s : State} {rb : Reg} (rd ra : Reg) (h : s.reg rb = 0) :
    execFdiv rd ra rb s = .next (s.raise Opcode.fdiv.code .divisionByZero) :=
  if_pos h

theorem execFdiv_of_ne_zero {s : State} {rb : Reg} (rd ra : Reg) (h : s.reg rb ≠ 0) :
    execFdiv rd ra rb s = .next (s.setReg rd (fmul s.cfg.p (s.reg ra) (finv s.cfg.p (s.reg rb)))).retire :=
  if_neg h

/-- Settles O13: Fermat's power, and its product with the element. -/
theorem finvInverts : Obligations.FinvInverts := by
  unfold Obligations.FinvInverts
  intro s rd ra ha h0
  exact ⟨finv s.cfg.p (s.reg ra), execFinv_of_ne_zero rd h0, fpow_eq s.cfg.one_lt _ _, finv_lt s.cfg.one_lt _,
    mul_finv_mod s.cfg ha h0⟩

/-- Settles O14: the product with the divisor's inverse, and its product with the divisor. -/
theorem fdivDivides : Obligations.FdivDivides := by
  unfold Obligations.FdivDivides
  intro s rd ra rb ha hb h0
  refine ⟨fmul s.cfg.p (s.reg ra) (finv s.cfg.p (s.reg rb)), execFdiv_of_ne_zero rd ra h0, ?_,
    fmul_lt s.cfg.p_pos _ _, fmul_finv_mul_mod s.cfg ha hb h0⟩
  rw [fmul, finv, fpow_eq s.cfg.one_lt]

/-- Settles O15: the two tests for 0, and the error words of L2. -/
theorem zeroDivisorsRaise : Obligations.ZeroDivisorsRaise := by
  unfold Obligations.ZeroDivisorsRaise
  exact ⟨fun _ rd _ h => execFinv_of_zero rd h, fun _ rd ra _ h => execFdiv_of_zero rd ra h⟩

/-! ### The commands that always retire -/

/-- Settles O16: binary exponentiation is the power, so the 0th power is 1 and the other powers of 0 are 0. -/
theorem fpowRaisesToPower : Obligations.FpowRaisesToPower := by
  unfold Obligations.FpowRaisesToPower
  intro s rd ra e
  refine ⟨fpow s.cfg.p (s.reg ra) e, next_setReg_retire rfl, fpow_eq s.cfg.one_lt _ _, fpow_lt s.cfg.one_lt _ _, ?_, ?_⟩
  · rintro rfl
    rw [fpow_eq s.cfg.one_lt, pow_zero, Nat.mod_eq_of_lt s.cfg.one_lt]
  · intro h0 he
    rw [fpow_eq s.cfg.one_lt, h0, zero_pow he, Nat.zero_mod]

/-- Settles O8: `State.retire`. -/
theorem nopOnlyRetires : Obligations.NopOnlyRetires := by
  unfold Obligations.NopOnlyRetires
  exact fun _ => rfl

/-- Settles O9: the sum's remainder, and its two cases for residues. -/
theorem faddAdds : Obligations.FaddAdds := by
  unfold Obligations.FaddAdds
  intro s rd ra rb
  exact ⟨fadd s.cfg.p (s.reg ra) (s.reg rb), next_setReg_retire rfl, by rw [fadd, Int.natCast_mod, Nat.cast_add],
    fadd_lt s.cfg.p_pos _ _, fadd_of_lt⟩

/-- Settles O10: the difference's remainder, and its two cases for residues. -/
theorem fsubSubtracts : Obligations.FsubSubtracts := by
  unfold Obligations.FsubSubtracts
  intro s rd ra rb
  exact ⟨fsub s.cfg.p (s.reg ra) (s.reg rb), next_setReg_retire rfl, coe_reduce s.cfg.p_pos _,
    fsub_lt s.cfg.p_pos _ _, coe_fsub_of_lt⟩

/-- Settles O11: the product is exact and then reduced. -/
theorem fmulMultiplies : Obligations.FmulMultiplies := by
  unfold Obligations.FmulMultiplies
  intro s rd ra rb
  exact ⟨fmul s.cfg.p (s.reg ra) (s.reg rb), next_setReg_retire rfl, rfl, fmul_lt s.cfg.p_pos _ _⟩

/-- Settles O12: the remainder of the difference from `p`, and its two cases for residues. -/
theorem fnegNegates : Obligations.FnegNegates := by
  unfold Obligations.FnegNegates
  intro s rd ra
  exact ⟨fneg s.cfg.p (s.reg ra), next_setReg_retire rfl, coe_reduce s.cfg.p_pos _, fneg_lt s.cfg.p_pos _, fneg_of_lt⟩

/-- Settles O17: the remainder of any integer is a residue. -/
theorem fsetiReduces : Obligations.FsetiReduces := by
  unfold Obligations.FsetiReduces
  intro s rd x
  exact ⟨reduce s.cfg.p x, next_setReg_retire rfl, coe_reduce s.cfg.p_pos x, reduce_lt s.cfg.p_pos x⟩

/-! ### The flags (R107, R118) -/

theorem eqFlag_iff {a b : Nat} : eqFlag a b = true ↔ a = b :=
  decide_eq_true_iff

theorem ltFlag_iff {a b : Nat} : ltFlag a b = true ↔ a < b :=
  decide_eq_true_iff

/-- Settles O18: the two flags of `State.setFlags`; equal integers are not in order. -/
theorem fcmpCompares : Obligations.FcmpCompares := by
  unfold Obligations.FcmpCompares
  intro s ra rb
  refine ⟨eqFlag (s.reg ra) (s.reg rb), ltFlag (s.reg ra) (s.reg rb), rfl, eqFlag_iff, ltFlag_iff, fun ⟨he, hl⟩ => ?_⟩
  exact (ltFlag_iff.mp hl).ne (eqFlag_iff.mp he)

end Sys2Proof.Machine
end

section
/-!
The root-of-unity cache (R145 to R149): what the build leaves, the three commands of the cache, and the only writers of ROOT,
BITREV and CVALID.
-/

namespace Sys2Proof.Machine

/-! ### The build (R145) -/

/-- R29, R145: where the cache is as R29 says, `EnsureCache()` leaves it built, whether it was so before or not. -/
theorem State.ensureCache_of_cacheOk {s : State} (h : s.CacheOk) :
    s.ensureCache = { s with root := builtRoot s.cfg, bitrev := builtBitrev s.cfg, cvalid := true } := by
  cases hv : s.cvalid
  · exact State.ensureCache_of_not_valid hv
  · obtain ⟨hroot, hrev⟩ := h.mp hv
    rw [State.ensureCache_of_valid hv, ← hroot, ← hrev, ← hv]

/-- Settles O27: `EnsureCache()` with CVALID 0 and with CVALID 1. -/
theorem rbuildBuildsOnce : Obligations.RbuildBuildsOnce := by
  unfold Obligations.RbuildBuildsOnce
  refine ⟨fun s hv => ?_, fun s hv => ?_⟩
  · rw [exec, execRbuild, State.ensureCache_of_not_valid hv]
    rfl
  · rw [exec, execRbuild, State.ensureCache_of_valid hv]
    rfl

/-! ### Reads of the tables (R147, R148) -/

/-- R140: row `l` of ROOT, for `l < K`, lies in the table. -/
theorem rowIndex_lt_size (c : Config) {l k : Nat} (hl : l < c.K) (hk : k < 2 ^ l) : 2 ^ l + k < c.size :=
  calc 2 ^ l + k < 2 ^ l + 2 ^ l := by omega
    _ = 2 ^ (l + 1) := by rw [pow_succ, mul_two]
    _ ≤ c.size := Nat.pow_le_pow_right two_pos hl

/-- R147: RRD of an index that names an entry. -/
theorem execRrd_of_entry {s : State} {a : Nat} (rd : Reg) (hc : s.CacheOk) (h1 : 1 ≤ a) (ha : a < s.cfg.size) :
    execRrd rd a s = .next { s with
      f := s.f.set rd (rootAt (builtRoot s.cfg) a),
      root := builtRoot s.cfg, bitrev := builtBitrev s.cfg, cvalid := true, cmdcnt := s.cmdcnt + 1, cs := .idle } := by
  rw [execRrd, rootIndexCause_eq_none.mpr ⟨h1, ha⟩, State.ensureCache_of_cacheOk hc]
  rfl

/-- R148: BRRD of an index that names an entry. -/
theorem execBrrd_of_entry {s : State} {i : Nat} (rd : Reg) (hc : s.CacheOk) (hi : i < s.cfg.size) :
    execBrrd rd i s = .next { s with
      f := s.f.set rd (bitReverse s.cfg.K i),
      root := builtRoot s.cfg, bitrev := builtBitrev s.cfg, cvalid := true, cmdcnt := s.cmdcnt + 1, cs := .idle } := by
  rw [execBrrd, bitrevIndexCause_eq_none.mpr hi, State.ensureCache_of_cacheOk hc, ← bitrevAt_builtBitrev s.cfg hi]
  rfl

/-- Settles O28: the index names an entry of row `l`, which holds the power of `ω_L`. -/
theorem rrdReadsRoot : Obligations.RrdReadsRoot := by
  unfold Obligations.RrdReadsRoot
  intro s rd l k hc hl hk
  have hpos : 0 < 2 ^ l := Nat.two_pow_pos l
  rw [exec, execRrd_of_entry rd hc (by omega) (rowIndex_lt_size s.cfg hl hk), rootAt_builtRoot_row s.cfg hl hk]

/-- Settles O29: the entry is the reversal of `K` bits, below `2^K` and so below `p`. -/
theorem brrdReadsReversal : Obligations.BrrdReadsReversal := by
  unfold Obligations.BrrdReadsReversal
  intro s rd i hc hi
  have hlt : bitReverse s.cfg.K i < 2 ^ s.cfg.K := bitReverse_lt _ _
  exact ⟨bitReverse s.cfg.K i, execBrrd_of_entry rd hc hi, hlt, hlt.trans s.cfg.size_lt_p,
    fun j hj => testBit_bitReverse_of_lt i hj⟩

/-- R147: RRD of an index that names no entry does not build the cache. -/
theorem execRrd_of_no_entry {s : State} {a : Nat} (rd : Reg) (h : a = 0 ∨ s.cfg.size ≤ a) :
    execRrd rd a s = .next (s.raise Opcode.rrd.code .tableIndexOutOfRange) := by
  have hcause : rootIndexCause s.cfg a = some .tableIndexOutOfRange := if_pos h
  rw [execRrd, hcause]

/-- R148: BRRD of an index that names no entry does not build the cache. -/
theorem execBrrd_of_no_entry {s : State} {i : Nat} (rd : Reg) (h : s.cfg.size ≤ i) :
    execBrrd rd i s = .next (s.raise Opcode.brrd.code .tableIndexOutOfRange) := by
  have hcause : bitrevIndexCause s.cfg i = some .tableIndexOutOfRange := if_pos h
  rw [execBrrd, hcause]

/-- Settles O30: the two index checks, and the error words of R36 and R201. -/
theorem tableIndexErrors : Obligations.TableIndexErrors := by
  unfold Obligations.TableIndexErrors
  exact ⟨fun _ rd _ h => execRrd_of_no_entry rd h, fun _ rd _ h => execBrrd_of_no_entry rd h⟩

/-! ### The only writers of the tables (R149) -/

/-- R145, R149: CVALID and the tables of `t` are those of `s`. -/
def State.SameCache (s t : State) : Prop :=
  t.cvalid = s.cvalid ∧ t.root = s.root ∧ t.bitrev = s.bitrev

/-- R145: CVALID was 0 in `s`, and in `t` it is 1 and the tables hold the contents that the configuration gives them. -/
def State.CacheBuilt (s t : State) : Prop :=
  s.cvalid = false ∧ t.cvalid = true ∧ t.root = builtRoot s.cfg ∧ t.bitrev = builtBitrev s.cfg

/-- R149: a command leaves the cache as it is, or builds it where CVALID is 0. -/
theorem Effect.sameCache_or_built {i : Instr} {s u : State} (h : Effect i s u) : s.SameCache u ∨ s.CacheBuilt u := by
  cases hv : s.cvalid
  · have hbuild := State.ensureCache_of_not_valid hv
    cases h with
    | none | register | flags | store => exact .inl ⟨rfl, rfl, rfl⟩
    | build | table | transform => rw [hbuild]; exact .inr ⟨hv, rfl, rfl, rfl⟩
  · obtain ⟨hroot, hrev, hvalid⟩ := h.tables_other (.inr hv)
    exact .inl ⟨hvalid, hroot, hrev⟩

/-- R149: the engine's turn leaves the cache as it is, or builds it as part of a command in progress. -/
theorem engineTurn_cache {s t : State} (h : engineTurn s = .next t) :
    s.SameCache t ∨ ((∃ w0 w1, s.cs = .busy w0 w1) ∧ s.CacheBuilt t) := by
  obtain rfl | ⟨w0, w1, -, hc, ⟨c, rfl⟩ | ⟨i, u, -, hu, rfl⟩⟩ := engineTurn_next_cases h
  · exact .inl ⟨rfl, rfl, rfl⟩
  · exact .inl ⟨rfl, rfl, rfl⟩
  · exact hu.sameCache_or_built.imp_right fun hb => ⟨⟨w0, w1, hc⟩, hb⟩

/-- R149: no host access writes the cache. -/
theorem hostAccess_sameCache {a : HostAccess} {s t : State} (h : hostAccess a s = .next t) : s.SameCache t := by
  obtain ⟨-, ⟨-, -, rfl⟩ | ⟨-, -, rfl⟩ | ⟨v, -, -, rfl⟩ | ⟨v, -, -, rfl⟩⟩ := hostAccess_next_cases h
  · exact ⟨rfl, rfl, rfl⟩
  · rw [State.answer]
    rcases hostRead_state (hostRegAt a.offset) s with hs | ⟨-, -, -, hs⟩ <;> rw [hs] <;> exact ⟨rfl, rfl, rfl⟩
  · exact ⟨rfl, rfl, rfl⟩
  · rw [hostWrite_frame]
    exact ⟨rfl, rfl, rfl⟩

/-- Settles O58: the engine's turn builds the cache or leaves it, a host access leaves it, and the third turn is reset's. -/
theorem cacheBuiltOnce : Obligations.CacheBuiltOnce := by
  unfold Obligations.CacheBuiltOnce
  intro s t h
  obtain ⟨he, hs⟩ | ⟨a, -, hs⟩ | ⟨b, hb, -⟩ := step_cases s
  · rw [hs] at h
    obtain hsame | ⟨hbusy, hv, hbuilt⟩ := engineTurn_cache h
    · exact .inl hsame
    · exact .inr (.inl ⟨hv, he, hbusy, hbuilt⟩)
  · rw [hs] at h
    exact .inl (hostAccess_sameCache (s := s.nextTurns) h)
  · exact .inr (.inr ⟨b, hb⟩)

end Sys2Proof.Machine
end

section
/-!
What the steps of the transforms compute (R160, R167): the closed forms, the two inversions, the convolution and linearity.
-/

namespace Sys2Proof

/-! ### Orthogonal families -/

/-- A family `u` of `n` rows and a vector `v` orthogonal to all of them but row `k` recover `f k` from the products of `f` and
the rows. -/
theorem inv_mul_sum_of_orthogonal {F : Type} [Field F] {n k : Nat} (hn : (n : F) ≠ 0) (hk : k < n) {u : Nat → Nat → F}
    {v : Nat → F} (f : Nat → F)
    (h : ∀ i < n, ∑ j ∈ Finset.range n, u i j * v j = if i = k then (n : F) else 0) :
    (n : F)⁻¹ * ∑ j ∈ Finset.range n, (∑ i ∈ Finset.range n, f i * u i j) * v j = f k := by
  have hswap : ∑ j ∈ Finset.range n, (∑ i ∈ Finset.range n, f i * u i j) * v j = f k * n :=
    calc ∑ j ∈ Finset.range n, (∑ i ∈ Finset.range n, f i * u i j) * v j
        = ∑ i ∈ Finset.range n, f i * ∑ j ∈ Finset.range n, u i j * v j := by
          simp only [Finset.sum_mul, Finset.mul_sum, mul_assoc]
          exact Finset.sum_comm
      _ = ∑ i ∈ Finset.range n, f i * if i = k then (n : F) else 0 :=
          Finset.sum_congr rfl fun i hi => by rw [h i (Finset.mem_range.mp hi)]
      _ = f k * n := by simp [hk]
  rw [hswap, mul_comm, mul_assoc, mul_inv_cancel₀ hn, mul_one]

end Sys2Proof

namespace Sys2Proof.Config

/-! ### The discrete Fourier transform in the field -/

variable (c : Config) {l : Nat}

/-- R167: the inverse transform undoes the forward transform. -/
theorem inverse_of_forward {k : Nat} (h : l ≤ c.K) (hk : k < 2 ^ l) (f : Nat → ZMod c.p) :
    ((2 ^ l : Nat) : ZMod c.p)⁻¹ * ∑ j ∈ Finset.range (2 ^ l),
      (∑ i ∈ Finset.range (2 ^ l), f i * c.unityRoot l ^ (i * j)) * (c.unityRoot l)⁻¹ ^ (j * k) = f k := by
  have := c.fact_prime
  exact inv_mul_sum_of_orthogonal (c.cast_size_ne_zero h) hk f fun i hi => c.sum_unityRoot_mul_inv h hi hk

/-- R167: the forward transform undoes the inverse transform. -/
theorem forward_of_inverse {k : Nat} (h : l ≤ c.K) (hk : k < 2 ^ l) (f : Nat → ZMod c.p) :
    ∑ j ∈ Finset.range (2 ^ l), (((2 ^ l : Nat) : ZMod c.p)⁻¹ *
      ∑ i ∈ Finset.range (2 ^ l), f i * (c.unityRoot l)⁻¹ ^ (i * j)) * c.unityRoot l ^ (j * k) = f k := by
  have := c.fact_prime
  simp only [mul_assoc _ _ (c.unityRoot l ^ _), ← Finset.mul_sum]
  refine inv_mul_sum_of_orthogonal (c.cast_size_ne_zero h) hk f fun i hi => ?_
  have horth := c.sum_unityRoot_mul_inv h hk hi
  simp only [eq_comm (a := k)] at horth
  rw [← horth]
  exact Finset.sum_congr rfl fun j _ => by rw [mul_comm, Nat.mul_comm i, Nat.mul_comm j]

/-- R167: the product of two forward transforms is the forward transform of the cyclic convolution. -/
theorem forward_convolution (h : l ≤ c.K) (x y : Nat → ZMod c.p) (k : Nat) :
    ∑ t ∈ Finset.range (2 ^ l), (∑ i ∈ Finset.range (2 ^ l), ∑ j ∈ Finset.range (2 ^ l),
        if (i + j) % 2 ^ l = t then x i * y j else 0) * c.unityRoot l ^ (t * k) =
      (∑ i ∈ Finset.range (2 ^ l), x i * c.unityRoot l ^ (i * k)) *
        ∑ j ∈ Finset.range (2 ^ l), y j * c.unityRoot l ^ (j * k) := by
  have hterm : ∀ i j : Nat, ∑ t ∈ Finset.range (2 ^ l),
      (if (i + j) % 2 ^ l = t then x i * y j else 0) * c.unityRoot l ^ (t * k) =
        x i * c.unityRoot l ^ (i * k) * (y j * c.unityRoot l ^ (j * k)) := by
    intro i j
    have hlt : (i + j) % 2 ^ l < 2 ^ l := Nat.mod_lt _ (Nat.two_pow_pos l)
    simp only [ite_mul, zero_mul, Finset.sum_ite_eq, Finset.mem_range, hlt, if_true]
    rw [pow_mul, c.unityRoot_pow_mod h, ← pow_mul, Nat.add_mul, pow_add, mul_mul_mul_comm]
  rw [Finset.sum_mul_sum]
  simp only [Finset.sum_mul]
  rw [Finset.sum_comm]
  refine Finset.sum_congr rfl fun i _ => ?_
  rw [Finset.sum_comm]
  exact Finset.sum_congr rfl fun j _ => hterm i j

end Sys2Proof.Config

namespace Sys2Proof.Machine

/-! ### The closed forms of R160 in the field -/

theorem cast_omega (c : Config) (l : Nat) : ((omega c (2 ^ l) : Nat) : ZMod c.p) = c.unityRoot l := by
  simp [omega, Config.unityRoot]

/-- R105, R160: `finv(ω_n)` is the inverse of `ω_n`. -/
theorem cast_omega_inv (c : Config) (l : Nat) :
    ((omega c (2 ^ l) ^ (c.p - 2) % c.p : Nat) : ZMod c.p) = (c.unityRoot l)⁻¹ := by
  rw [← fpow_eq c.one_lt, ← finv, cast_finv c (by rw [cast_omega]; exact c.unityRoot_ne_zero l), cast_omega]

/-- R105, R160: `finv(n mod p)` is the inverse of `n`. -/
theorem cast_size_inv (c : Config) {l : Nat} (h : l ≤ c.K) :
    (((2 ^ l % c.p) ^ (c.p - 2) % c.p : Nat) : ZMod c.p) = ((2 ^ l : Nat) : ZMod c.p)⁻¹ := by
  have hmod : ((2 ^ l % c.p : Nat) : ZMod c.p) = ((2 ^ l : Nat) : ZMod c.p) := ZMod.natCast_mod _ _
  rw [← fpow_eq c.one_lt, ← finv, cast_finv c (by rw [hmod]; exact c.cast_size_ne_zero h), hmod]

theorem cast_fwdNtt (c : Config) {a : List Nat} {l : Nat} (hlen : a.length = 2 ^ l) (k : Nat) :
    ((fwdNtt c a k : Nat) : ZMod c.p) =
      ∑ j ∈ Finset.range (2 ^ l), (wordAt a j : ZMod c.p) * c.unityRoot l ^ (j * k) := by
  simp [fwdNtt, hlen, cast_omega]

theorem cast_invNtt (c : Config) {a : List Nat} {l : Nat} (h : l ≤ c.K) (hlen : a.length = 2 ^ l) (k : Nat) :
    ((invNtt c a k : Nat) : ZMod c.p) = ((2 ^ l : Nat) : ZMod c.p)⁻¹ *
      ∑ j ∈ Finset.range (2 ^ l), (wordAt a j : ZMod c.p) * (c.unityRoot l)⁻¹ ^ (j * k) := by
  rw [invNtt, hlen, ZMod.natCast_mod, Nat.cast_mul, cast_size_inv c h, Nat.cast_sum]
  simp only [Nat.cast_mul, Nat.cast_pow, cast_omega_inv]

theorem cast_cyclicConvolution (c : Config) {x : List Nat} {l : Nat} (hlen : x.length = 2 ^ l) (y : List Nat) (k : Nat) :
    ((cyclicConvolution c x y k : Nat) : ZMod c.p) =
      ∑ i ∈ Finset.range (2 ^ l), ∑ j ∈ Finset.range (2 ^ l),
        if (i + j) % 2 ^ l = k then (wordAt x i : ZMod c.p) * wordAt y j else 0 := by
  simp [cyclicConvolution, hlen]

/-! ### The steps with the built tables -/

/-- R165: what the steps of NTT make of `a`, with the tables built. -/
def builtForward (c : Config) (a : List Nat) : List Nat :=
  forwardSteps c.p c.K (builtRoot c) (builtBitrev c) a

/-- R166: what the steps of INTT make of `a`, with the tables built. -/
def builtInverse (c : Config) (a : List Nat) : List Nat :=
  inverseSteps c.p c.K (builtRoot c) (builtBitrev c) a

@[simp] theorem builtForward_length (c : Config) (a : List Nat) : (builtForward c a).length = a.length :=
  forwardSteps_length ..

@[simp] theorem builtInverse_length (c : Config) (a : List Nat) : (builtInverse c a).length = a.length :=
  inverseSteps_length ..

theorem builtForward_lt (c : Config) {a : List Nat} (h : ∀ x ∈ a, x < c.p) : ∀ x ∈ builtForward c a, x < c.p :=
  forwardSteps_lt c.p_pos _ _ _ h

theorem builtInverse_lt (c : Config) (a : List Nat) : ∀ x ∈ builtInverse c a, x < c.p :=
  inverseSteps_lt c.p_pos _ _ _ a

theorem cast_builtForward (c : Config) {a : List Nat} {m k : Nat} (hm : m ≤ c.K) (hlen : a.length = 2 ^ m) (hk : k < 2 ^ m) :
    ((wordAt (builtForward c a) k : Nat) : ZMod c.p) =
      ∑ j ∈ Finset.range (2 ^ m), (wordAt a j : ZMod c.p) * c.unityRoot m ^ (j * k) :=
  cast_forwardSteps c hm hlen hk

theorem cast_builtInverse (c : Config) {a : List Nat} {m k : Nat} (hm : m ≤ c.K) (hlen : a.length = 2 ^ m) (hk : k < 2 ^ m) :
    ((wordAt (builtInverse c a) k : Nat) : ZMod c.p) = ((2 ^ m : Nat) : ZMod c.p)⁻¹ *
      ∑ j ∈ Finset.range (2 ^ m), (wordAt a j : ZMod c.p) * (c.unityRoot m)⁻¹ ^ (j * k) :=
  cast_inverseSteps c hm hlen hk

/-- A word of a list of residues is the residue that has its value in the field. -/
theorem getElem?_of_cast {p : Nat} {a : List Nat} {k v : Nat} (ha : ∀ x ∈ a, x < p) (hk : k < a.length) (hv : v < p)
    (h : (wordAt a k : ZMod p) = v) : a[k]? = some v := by
  rw [wordAt_eq hk, eq_of_cast_eq (wordAt_lt (by omega) ha k) hv h]

/-- Lists of residues that agree in the field at every position are equal. -/
theorem eq_of_cast_wordAt {p n : Nat} {a b : List Nat} (hna : a.length = n) (hnb : b.length = n) (ha : ∀ x ∈ a, x < p)
    (hb : ∀ x ∈ b, x < p) (h : ∀ k < n, (wordAt a k : ZMod p) = wordAt b k) : a = b := by
  refine List.ext_getElem (hna.trans hnb.symm) fun k hka hkb => ?_
  refine eq_of_cast_eq (ha _ (List.getElem_mem hka)) (hb _ (List.getElem_mem hkb)) ?_
  simpa [wordAt, hka, hkb] using h k (hna ▸ hka)

theorem wordAt_zipWith (f : Nat → Nat → Nat) {x y : List Nat} {k : Nat} (hx : k < x.length) (hy : k < y.length) :
    wordAt (List.zipWith f x y) k = f (wordAt x k) (wordAt y k) := by
  simp [wordAt, hx, hy]

theorem zipWith_lt {p : Nat} {f : Nat → Nat → Nat} (hf : ∀ a b, f a b < p) {x y : List Nat} :
    ∀ v ∈ List.zipWith f x y, v < p := by
  intro v hv
  obtain ⟨i, hi, rfl⟩ := List.mem_iff_getElem.mp hv
  rw [List.getElem_zipWith]
  exact hf _ _

/-! ### R160 and R167 for the steps -/

/-- R160, R165: the steps of NTT compute the forward transform. -/
theorem getElem?_builtForward (c : Config) {a : List Nat} {m k : Nat} (hm : m ≤ c.K) (hlen : a.length = 2 ^ m)
    (ha : ∀ x ∈ a, x < c.p) (hk : k < 2 ^ m) : (builtForward c a)[k]? = some (fwdNtt c a k) :=
  getElem?_of_cast (builtForward_lt c ha) (by simpa [hlen] using hk) (Nat.mod_lt _ c.p_pos)
    ((cast_builtForward c hm hlen hk).trans (cast_fwdNtt c hlen k).symm)

/-- R160, R166: the steps of INTT compute the inverse transform. -/
theorem getElem?_builtInverse (c : Config) {a : List Nat} {m k : Nat} (hm : m ≤ c.K) (hlen : a.length = 2 ^ m)
    (hk : k < 2 ^ m) : (builtInverse c a)[k]? = some (invNtt c a k) :=
  getElem?_of_cast (builtInverse_lt c a) (by simpa [hlen] using hk) (Nat.mod_lt _ c.p_pos)
    ((cast_builtInverse c hm hlen hk).trans (cast_invNtt c hm hlen k).symm)

/-- R167: the steps of INTT undo those of NTT. -/
theorem builtInverse_builtForward (c : Config) {a : List Nat} {m : Nat} (hm : m ≤ c.K) (hlen : a.length = 2 ^ m)
    (ha : ∀ x ∈ a, x < c.p) : builtInverse c (builtForward c a) = a := by
  refine eq_of_cast_wordAt (by simp [hlen]) hlen (builtInverse_lt c _) ha fun k hk => ?_
  rw [cast_builtInverse c hm (by simp [hlen]) hk, ← c.inverse_of_forward hm hk fun i => (wordAt a i : ZMod c.p)]
  congr 1
  exact Finset.sum_congr rfl fun j hj => by rw [cast_builtForward c hm hlen (Finset.mem_range.mp hj)]

/-- R167: the steps of NTT undo those of INTT. -/
theorem builtForward_builtInverse (c : Config) {a : List Nat} {m : Nat} (hm : m ≤ c.K) (hlen : a.length = 2 ^ m)
    (ha : ∀ x ∈ a, x < c.p) : builtForward c (builtInverse c a) = a := by
  refine eq_of_cast_wordAt (by simp [hlen]) hlen (builtForward_lt c (builtInverse_lt c a)) ha fun k hk => ?_
  rw [cast_builtForward c hm (by simp [hlen]) hk, ← c.forward_of_inverse hm hk fun i => (wordAt a i : ZMod c.p)]
  exact Finset.sum_congr rfl fun j hj => by rw [cast_builtInverse c hm hlen (Finset.mem_range.mp hj)]

/-- R167: the pointwise product of two forward transforms, in the field, is the forward transform of the convolution. -/
theorem cast_builtForward_product (c : Config) {x y : List Nat} {m j : Nat} (hm : m ≤ c.K) (hx : x.length = 2 ^ m)
    (hy : y.length = 2 ^ m) (hj : j < 2 ^ m) :
    ((wordAt (List.zipWith (fmul c.p) (builtForward c x) (builtForward c y)) j : Nat) : ZMod c.p) =
      ∑ t ∈ Finset.range (2 ^ m), ((cyclicConvolution c x y t : Nat) : ZMod c.p) * c.unityRoot m ^ (t * j) := by
  rw [wordAt_zipWith _ (by simpa [hx] using hj) (by simpa [hy] using hj), cast_fmul, cast_builtForward c hm hx hj,
    cast_builtForward c hm hy hj, ← c.forward_convolution hm]
  simp only [cast_cyclicConvolution c hx]

/-- Settles O34: the product is the forward transform of the convolution, which the inverse transform undoes. -/
theorem pointwiseProductConvolves : Obligations.PointwiseProductConvolves := by
  unfold Obligations.PointwiseProductConvolves
  intro c m x y hm hx hy _ _
  change ∀ k < 2 ^ m, (builtInverse c (List.zipWith (fmul c.p) (builtForward c x) (builtForward c y)))[k]? = _
  intro k hk
  have hlen : (List.zipWith (fmul c.p) (builtForward c x) (builtForward c y)).length = 2 ^ m := by simp [hx, hy]
  refine getElem?_of_cast (builtInverse_lt c _) (by simpa only [builtInverse_length, hlen] using hk) (Nat.mod_lt _ c.p_pos) ?_
  rw [cast_builtInverse c hm hlen hk, ← c.inverse_of_forward hm hk fun t => ((cyclicConvolution c x y t : Nat) : ZMod c.p)]
  congr 1
  exact Finset.sum_congr rfl fun j hj => by rw [cast_builtForward_product c hm hx hy (Finset.mem_range.mp hj)]

/-- Settles O35: in the field both sides are the sum of the two transforms, and both are lists of residues. -/
theorem forwardTransformIsLinear : Obligations.ForwardTransformIsLinear := by
  unfold Obligations.ForwardTransformIsLinear
  intro c m x y hm hx hy
  change builtForward c (List.zipWith (fadd c.p) x y) = List.zipWith (fadd c.p) (builtForward c x) (builtForward c y)
  have hlt := fadd_lt c.p_pos
  have hlen : (List.zipWith (fadd c.p) x y).length = 2 ^ m := by simp [hx, hy]
  refine eq_of_cast_wordAt (n := 2 ^ m) (by simp [hx, hy]) (by simp [hx, hy]) (builtForward_lt c (zipWith_lt hlt))
    (zipWith_lt hlt) fun k hk => ?_
  rw [cast_builtForward c hm hlen hk, wordAt_zipWith _ (by simpa [hx] using hk) (by simpa [hy] using hk), cast_fadd,
    cast_builtForward c hm hx hk, cast_builtForward c hm hy hk, ← Finset.sum_add_distrib]
  refine Finset.sum_congr rfl fun j hj => ?_
  have hj := Finset.mem_range.mp hj
  rw [wordAt_zipWith _ (hx ▸ hj) (hy ▸ hj), cast_fadd, add_mul]

end Sys2Proof.Machine
end

section
/-!
The transform commands (R165, R166, R168, R205): the errors of their operands, the closed form in place, and the round trip.
-/

namespace Sys2Proof.Machine

/-! ### Operand errors (R205) -/

theorem transform_of_cause {s : State} {bk : Bank} {n : Nat} {e : Cause} (op : Opcode)
    (steps : State → List Nat → List Nat) (h : transformCause s.cfg bk n = some e) :
    transform op steps bk n s = .next (s.raise op.code e) := by
  rw [transform, h]

theorem transformCause_of_no_bank {c : Config} {bk : Bank} (n : Nat) (h : c.nbank ≤ bk) :
    transformCause c bk n = some .bankOutOfRange := by
  have hcause : bankCause c bk = some .bankOutOfRange := if_pos h
  rw [transformCause, hcause]

theorem transformCause_of_not_power {c : Config} {bk : Bank} {n : Nat} (hb : (bk : Nat) < c.nbank) (h : ∀ m, n ≠ 2 ^ m) :
    transformCause c bk n = some .sizeNotPowerOfTwo := by
  have hpow : ¬ isPowerOfTwo n = true := fun hp => (isPowerOfTwo_iff.mp hp).elim h
  rw [transformCause, bankCause_eq_none.mpr hb]
  exact if_neg hpow

theorem transformCause_of_too_large {c : Config} {bk : Bank} {n : Nat} (hb : (bk : Nat) < c.nbank) (h : ∃ m, n = 2 ^ m)
    (hn : c.size < n) : transformCause c bk n = some .sizeTooLarge := by
  rw [transformCause, bankCause_eq_none.mpr hb]
  exact (if_pos (isPowerOfTwo_iff.mpr h)).trans (if_pos hn)

/-- Settles O36: the three causes in the order of R205, and the error words of R36 and R201. -/
theorem transformOperandErrors : Obligations.TransformOperandErrors := by
  unfold Obligations.TransformOperandErrors
  refine fun s bk n => ⟨fun hb => ?_, fun hb hn => ?_, fun hb hp hn => ?_⟩
  · have hcause := transformCause_of_no_bank n hb
    exact ⟨transform_of_cause _ _ hcause, transform_of_cause _ _ hcause⟩
  · have hcause := transformCause_of_not_power hb hn
    exact ⟨transform_of_cause _ _ hcause, transform_of_cause _ _ hcause⟩
  · have hcause := transformCause_of_too_large hb hp hn
    exact ⟨transform_of_cause _ _ hcause, transform_of_cause _ _ hcause⟩

/-! ### A transform in place (R165, R166, R168) -/

/-- R168: `a` is the `n = 2^m` words of bank `bk` that a transform of a legal size reads. -/
structure State.HoldsOperand (s : State) (bk : Bank) (m : Nat) (a : List Nat) : Prop where
  bank : (bk : Nat) < s.cfg.nbank
  size : m ≤ s.cfg.K
  length : a.length = 2 ^ m
  words : ∀ j < 2 ^ m, s.bufRead bk j = a[j]?

/-- The state in which a transform of bank `bk` retires, where `r` is what its steps made of the words. -/
def State.transformed (s : State) (bk : Bank) (r : List Nat) : State :=
  { s with
    buf := s.buf.writeRun bk 0 r, root := builtRoot s.cfg, bitrev := builtBitrev s.cfg, cvalid := true,
    cmdcnt := s.cmdcnt + 1, cs := .idle }

@[simp] theorem State.transformed_cfg (s : State) (bk : Bank) (r : List Nat) : (s.transformed bk r).cfg = s.cfg := rfl

theorem State.transformed_cacheOk (s : State) (bk : Bank) (r : List Nat) : (s.transformed bk r).CacheOk :=
  iff_of_true rfl ⟨rfl, rfl⟩

/-- R165, R166: a transform of a legal size of written words retires. -/
theorem transform_of_operand {s : State} {bk : Bank} {m : Nat} {a : List Nat} (op : Opcode)
    (steps : State → List Nat → List Nat) (hc : s.CacheOk) (h : s.HoldsOperand bk m a) :
    transform op steps bk (2 ^ m) s = .next (s.transformed bk (steps s.ensureCache a)) := by
  have hcause : transformCause s.cfg bk (2 ^ m) = none :=
    transformCause_eq_none.mpr ⟨h.bank, isPowerOfTwo_iff.mpr ⟨m, rfl⟩, Nat.pow_le_pow_right two_pos h.size⟩
  have hrun : s.ensureCache.buf.readRun bk 0 (2 ^ m) = some a := by
    rw [State.ensureCache_buf, Memory.readRun_eq_some]
    exact ⟨h.length, fun j hj => by rw [Nat.zero_add]; exact h.words j hj⟩
  rw [transform, hcause, hrun, State.ensureCache_of_cacheOk hc]
  rfl

/-- R165: NTT of written words. -/
theorem exec_ntt {s : State} {bk : Bank} {m : Nat} {a : List Nat} (hc : s.CacheOk) (h : s.HoldsOperand bk m a) :
    exec (.ntt bk (2 ^ m)) s = .next (s.transformed bk (builtForward s.cfg a)) := by
  rw [exec, execNtt, transform_of_operand _ _ hc h, State.ensureCache_of_cacheOk hc]
  rfl

/-- R166: INTT of written words. -/
theorem exec_intt {s : State} {bk : Bank} {m : Nat} {a : List Nat} (hc : s.CacheOk) (h : s.HoldsOperand bk m a) :
    exec (.intt bk (2 ^ m)) s = .next (s.transformed bk (builtInverse s.cfg a)) := by
  rw [exec, execIntt, transform_of_operand _ _ hc h, State.ensureCache_of_cacheOk hc]
  rfl

/-- R26, R50: a run of writes to words 0, 1, ... of a bank leaves every key of another word as it was. -/
theorem Memory.read_writeRun_other (m : Memory) {b key : Nat} {r : List Nat} (h : ∀ k < r.length, key ≠ wordKey b k) :
    (m.writeRun b 0 r).read key = m.read key := by
  rw [Memory.read_writeRun, if_neg]
  rintro ⟨hlo, hhi⟩
  refine h (key - wordKey b 0) (by omega) ?_
  rw [← Nat.zero_add (key - wordKey b 0), wordKey_add]
  omega

/-- R165, R168: what a transform leaves in the buffer: the words `v k` that its steps computed, and every other word as it
was. -/
theorem State.HoldsOperand.buffer_after {s : State} {bk : Bank} {m : Nat} {a r : List Nat} {v : Nat → Nat}
    (h : s.HoldsOperand bk m a) (hlen : r.length = a.length) (hv : ∀ k < 2 ^ m, r[k]? = some (v k)) :
    (∀ k < 2 ^ m, { s with buf := s.buf.writeRun bk 0 r }.bufRead bk k = some (v k)) ∧
    (∀ c j : Nat, j < 2 ^ s.cfg.K → ¬ (c = (bk : Nat) ∧ j < 2 ^ m) →
      { s with buf := s.buf.writeRun bk 0 r }.bufRead c j = s.bufRead c j) ∧
    (∀ key, (∀ k < 2 ^ m, key ≠ wordKey bk k) → (s.buf.writeRun bk 0 r).read key = s.buf.read key) ∧
    (s.buf.wf → (s.buf.writeRun bk 0 r).wf) := by
  have hr : r.length = 2 ^ m := hlen.trans h.length
  have hsize : 2 ^ m ≤ s.cfg.size := Nat.pow_le_pow_right two_pos h.size
  have hmax := s.cfg.size_le
  refine ⟨fun k hk => ?_, fun c j hj hne => ?_, fun key hkey => ?_, fun hwf => Memory.wf_writeRun hwf _ _ _⟩
  · exact (Memory.read_writeRun_at _ _ _ (hr ▸ hk)).trans (hv k hk)
  · exact Memory.read_writeRun_word _ _ (s.cfg.index_lt hj) (by omega) (hr ▸ hne)
  · exact Memory.read_writeRun_other _ (hr ▸ hkey)

/-- Settles O31: the steps of NTT compute the closed form, and the write of `n` words leaves the others. -/
theorem nttComputesForwardTransform : Obligations.NttComputesForwardTransform := by
  unfold Obligations.NttComputesForwardTransform
  intro s bk m a hc hb hm hlen ha hread
  have h : s.HoldsOperand bk m a := ⟨hb, hm, hlen, hread⟩
  exact ⟨_, exec_ntt hc h, h.buffer_after (builtForward_length _ _) fun _ hk => getElem?_builtForward _ hm hlen ha hk⟩

/-- Settles O32: the steps of INTT compute the closed form, and the write of `n` words leaves the others. -/
theorem inttComputesInverseTransform : Obligations.InttComputesInverseTransform := by
  unfold Obligations.InttComputesInverseTransform
  intro s bk m a hc hb hm hlen _ hread
  have h : s.HoldsOperand bk m a := ⟨hb, hm, hlen, hread⟩
  exact ⟨_, exec_intt hc h, h.buffer_after (builtInverse_length _ _) fun _ hk => getElem?_builtInverse _ hm hlen hk⟩

/-! ### The round trip (R167) -/

/-- Written residues are the operand of a transform. -/
theorem exists_holdsOperand {s : State} {bk : Bank} {m : Nat} (hb : (bk : Nat) < s.cfg.nbank) (hm : m ≤ s.cfg.K)
    (h : ∀ j < 2 ^ m, ∃ v, s.bufRead bk j = some v ∧ v < s.cfg.p) :
    ∃ a, s.HoldsOperand bk m a ∧ ∀ x ∈ a, x < s.cfg.p := by
  have hsome : (s.buf.readRun bk 0 (2 ^ m)).isSome = true := by
    refine Memory.readRun_isSome.mpr fun j hj => ?_
    obtain ⟨v, hv, -⟩ := h j hj
    rw [Nat.zero_add]
    exact Option.isSome_iff_exists.mpr ⟨v, hv⟩
  obtain ⟨a, ha⟩ := Option.isSome_iff_exists.mp hsome
  obtain ⟨hlen, hread⟩ := Memory.readRun_eq_some.mp ha
  simp only [Nat.zero_add] at hread
  refine ⟨a, ⟨hb, hm, hlen, hread⟩, fun x hx => ?_⟩
  obtain ⟨j, hj, rfl⟩ := List.mem_iff_getElem.mp hx
  obtain ⟨v, hv, hlt⟩ := h j (hlen ▸ hj)
  obtain rfl : a[j] = v := by simpa [hj] using (hread j (hlen ▸ hj)).symm.trans hv
  exact hlt

/-- After a transform the bank holds what its steps made of the words, as the operand of the next. -/
theorem State.HoldsOperand.transformed {s : State} {bk : Bank} {m : Nat} {a r : List Nat} (h : s.HoldsOperand bk m a)
    (hlen : r.length = a.length) : (s.transformed bk r).HoldsOperand bk m r where
  bank := h.bank
  size := h.size
  length := hlen.trans h.length
  words j hj := Memory.read_writeRun_at _ _ _ (by rw [hlen, h.length]; exact hj)

/-- Writing a bank's own words over those of a transform restores the buffer. -/
theorem State.HoldsOperand.read_restored {s : State} {bk : Bank} {m : Nat} {a r : List Nat} (h : s.HoldsOperand bk m a)
    (hlen : r.length = a.length) (key : Nat) : ((s.transformed bk r).transformed bk a).buf.read key = s.buf.read key := by
  change ((s.buf.writeRun bk 0 r).writeRun bk 0 a).read key = _
  by_cases hkey : ∃ k < a.length, key = wordKey bk k
  · obtain ⟨k, hk, rfl⟩ := hkey
    rw [Memory.read_writeRun_at _ _ _ hk]
    exact (h.words k (h.length ▸ hk)).symm
  · have hne : ∀ k < a.length, key ≠ wordKey bk k := fun k hk e => hkey ⟨k, hk, e⟩
    rw [Memory.read_writeRun_other _ hne, Memory.read_writeRun_other _ (hlen ▸ hne)]

/-- Settles O33: each command's steps undo the other's, so the second write restores the words. -/
theorem transformsRoundTrip : Obligations.TransformsRoundTrip := by
  unfold Obligations.TransformsRoundTrip
  intro s bk m hc hb hm hwords
  obtain ⟨a, h, ha⟩ := exists_holdsOperand hb hm hwords
  have hforward := builtForward_length s.cfg a
  have hinverse := builtInverse_length s.cfg a
  refine ⟨⟨_, _, exec_ntt hc h, exec_intt (s.transformed_cacheOk bk _) (h.transformed hforward), fun key => ?_⟩,
    ⟨_, _, exec_intt hc h, exec_ntt (s.transformed_cacheOk bk _) (h.transformed hinverse), fun key => ?_⟩⟩
  · rw [State.transformed_cfg, builtInverse_builtForward _ hm h.length ha]
    exact h.read_restored hforward key
  · rw [State.transformed_cfg, builtForward_builtInverse _ hm h.length ha]
    exact h.read_restored hinverse key

end Sys2Proof.Machine
end

section
/-!
The buffer transfer commands (R180, R181, R205): the word that FLD loads, the only word that FST stores, and the errors of their
operands.
-/

namespace Sys2Proof.Machine

/-! ### A word that exists (R180, R181) -/

/-- R180: the whole effect of FLD of a written word. -/
theorem execFld_written {s : State} {bk : Bank} {i v : Nat} (rd : Reg) (hb : (bk : Nat) < s.cfg.nbank) (hi : i < s.cfg.size)
    (hv : s.bufRead bk i = some v) : execFld rd bk i s = .next (s.setReg rd v).retire := by
  rw [execFld, wordCause_eq_none.mpr ⟨hb, hi⟩, hv]

/-- R181: the whole effect of FST, whether or not the word was written before. -/
theorem execFst_of_word {s : State} {bk : Bank} {i : Nat} (ra : Reg) (hb : (bk : Nat) < s.cfg.nbank) (hi : i < s.cfg.size) :
    execFst ra bk i s = .next (s.bufWrite bk i (s.reg ra)).retire := by
  rw [execFst, wordCause_eq_none.mpr ⟨hb, hi⟩]

/-- Settles O21: FST is one write of the buffer, and no other word has the key that it writes. -/
theorem fstStores : Obligations.FstStores := by
  unfold Obligations.FstStores
  intro s ra bk i hb hi
  refine ⟨s.buf.write (wordKey bk i) (s.reg ra), execFst_of_word ra hb hi, Memory.read_write_same _ _ _, fun c j hj hne => ?_,
    fun key hkey => Memory.read_write_other _ _ hkey, fun hwf => Memory.wf_write hwf _ _⟩
  exact Memory.read_write_word _ _ (s.cfg.index_lt hi) (s.cfg.index_lt hj) hne

/-- Settles O20: the value that FLD writes is the word as it stands, with no reduction. -/
theorem fldLoads : Obligations.FldLoads := by
  unfold Obligations.FldLoads
  intro s rd bk i v hb hi hv
  exact execFld_written rd hb hi hv

/-! ### Operand errors (R180, R181, R205) -/

/-- R205: the bank is checked before the index, so the index does not matter. -/
theorem wordCause_of_no_bank {c : Config} {bk : Bank} (i : Nat) (h : c.nbank ≤ bk) :
    wordCause c bk i = some .bankOutOfRange := by
  have hcause : bankCause c bk = some .bankOutOfRange := if_pos h
  rw [wordCause, hcause]

theorem wordCause_of_no_index {c : Config} {bk : Bank} {i : Nat} (hb : (bk : Nat) < c.nbank) (hi : c.size ≤ i) :
    wordCause c bk i = some .indexOutOfRange := by
  rw [wordCause, bankCause_eq_none.mpr hb]
  exact if_pos hi

theorem execFld_of_cause {s : State} {bk : Bank} {i : Nat} {e : Cause} (rd : Reg) (h : wordCause s.cfg bk i = some e) :
    execFld rd bk i s = .next (s.raise Opcode.fld.code e) := by
  rw [execFld, h]

theorem execFst_of_cause {s : State} {bk : Bank} {i : Nat} {e : Cause} (ra : Reg) (h : wordCause s.cfg bk i = some e) :
    execFst ra bk i s = .next (s.raise Opcode.fst.code e) := by
  rw [execFst, h]

/-- Settles O22: the two causes in the order of R205, and the error words of R36 and R201. -/
theorem transferOperandErrors : Obligations.TransferOperandErrors := by
  unfold Obligations.TransferOperandErrors
  refine fun s r bk i => ⟨fun hb => ?_, fun hb hi => ?_⟩
  · have hcause := wordCause_of_no_bank i hb
    exact ⟨execFld_of_cause r hcause, execFst_of_cause r hcause⟩
  · have hcause := wordCause_of_no_index hb hi
    exact ⟨execFld_of_cause r hcause, execFst_of_cause r hcause⟩

end Sys2Proof.Machine
end

section
/-!
How the Halted state is left (R35, R204, R211): by CLRERR or by reset.
-/

namespace Sys2Proof.Machine

/-- R44: a Halted engine's turn does nothing. -/
theorem engineTurn_of_halted {s t : State} (hc : s.cs = .halted) (h : engineTurn s = .next t) : t = s := by
  rw [engineTurn_of_not_busy (by simp [hc])] at h
  injection h with h
  exact h.symm

/-- R35, R204: no host write but CLRERR changes the Halted state or its ERRCODE. -/
theorem hostWrite_of_halted (r : HostReg) (v : Word32) {s : State} (hc : s.cs = .halted) :
    ((hostWrite r v s).cs = .halted ∧ (hostWrite r v s).errcode = s.errcode) ∨ (r = .ctrl ∧ v.getLsbD 0 = true) := by
  obtain ⟨hcs, he⟩ | ⟨hr, hv, -⟩ | ⟨-, ⟨w, hs⟩, -⟩ | ⟨-, -, ⟨hs, -⟩ | ⟨hs, -⟩ | ⟨w, hs, -⟩⟩ := hostWrite_control r v s
  · exact .inl ⟨hcs.trans hc, he⟩
  · exact .inr ⟨hr, hv⟩
  all_goals cases hc.symm.trans hs

/-- R35, R204: a host access leaves the engine Halted with the same ERRCODE, or it is a CTRL write with CLRERR set. -/
theorem hostAccess_of_halted {a : HostAccess} {s t : State} (hc : s.cs = .halted) (h : hostAccess a s = .next t) :
    (t.cs = .halted ∧ t.errcode = s.errcode) ∨ ∃ v, Turn.host a = writeTurn 0x10 v ∧ v.getLsbD 0 = true := by
  obtain ⟨hl, ⟨-, -, rfl⟩ | ⟨-, -, rfl⟩ | ⟨v, -, -, rfl⟩ | ⟨v, ho, -, rfl⟩⟩ := hostAccess_next_cases h
  · exact .inl ⟨hc, rfl⟩
  · rw [State.answer]
    rcases hostRead_state (hostRegAt a.offset) s with hs | ⟨-, -, -, hs⟩ <;> rw [hs] <;> exact .inl ⟨hc, rfl⟩
  · exact .inl ⟨hc, rfl⟩
  · obtain hkept | ⟨hreg, hv⟩ := hostWrite_of_halted (hostRegAt a.offset) v (s := s.nextEpoch) hc
    · exact .inl hkept
    · exact .inr ⟨v, by rw [host_of_write hl ho, offset_of_ctrl hreg], hv⟩

/-- Settles O54: the engine's turn does nothing, a host access that leaves Halted is CLRERR, and the third turn is reset's. -/
theorem haltedUntilCleared : Obligations.HaltedUntilCleared := by
  unfold Obligations.HaltedUntilCleared
  intro s t hc h
  obtain ⟨-, hs⟩ | ⟨a, ht, hs⟩ | ⟨b, hb, -⟩ := step_cases s
  · rw [hs] at h
    rw [engineTurn_of_halted (s := s.nextTurns) hc h]
    exact .inl ⟨hc, rfl⟩
  · rw [hs] at h
    obtain hkept | ⟨v, ha, hv⟩ := hostAccess_of_halted (s := s.nextTurns) hc h
    · exact .inl hkept
    · exact .inr (.inl ⟨v, ht.trans (congrArg some ha), hv⟩)
  · exact .inr (.inr ⟨b, hb⟩)

end Sys2Proof.Machine
end

section
/-!
An accepted command finishes within the schedule (R44, R241), and the reset input (R46, R230).
-/

namespace Sys2Proof.Laws

/-- R70: a row that has the payload it asks for reads an instruction. -/
theorem exists_operands {op : Opcode} {w1 : Option Word64} (w0 : Word64) (hp : w1.isSome = op.hasPayload) :
    ∃ i, operands op w0 w1 = .ok i := by
  cases op with
  | fpow | fseti =>
    obtain ⟨p, rfl⟩ := Option.isSome_iff_exists.mp hp
    exact ⟨_, rfl⟩
  | nop | fadd | fsub | fmul | fneg | finv | fdiv | fcmp | fld | fst | ntt | intt | rbuild | rrd | brrd => exact ⟨_, rfl⟩

/-- R39, R78: no payload is missing where the command has the words its opcode asks for. -/
theorem decode_ne_missingPayload {w0 : Word64} {w1 : Option Word64} (hp : w1.isSome = needsPayload w0) :
    decode w0 w1 ≠ .error .missingPayload := by
  rw [needsPayload] at hp
  rw [decode]
  cases ho : opcodeOf (opcField w0) with
  | none => simp
  | some op =>
    rw [ho] at hp
    obtain ⟨i, hi⟩ := exists_operands w0 hp
    simp only [hi]
    split <;> simp

end Sys2Proof.Laws

namespace Sys2Proof.Machine

/-! ### A step from Busy (R44, R47, R53, R241) -/

/-- R44: no command is in progress. -/
def State.NotBusy (s : State) : Prop :=
  ∀ w0 w1, s.cs ≠ .busy w0 w1

/-- R44, R47, R53: the busy state is over, or the model has stopped on an unwritten operand word or a malformed host access. -/
def Finished (o : Host.Outcome State Fault Refusal) : Prop :=
  (∃ t, o = .next t ∧ t.NotBusy) ∨ o = .fault .unwrittenRead ∨ o = .refused .hostAccessForm

/-- R44: a command that has a next state has left Busy: it retired to Idle, or it raised an error and is Halted. -/
theorem exec_notBusy {i : Instr} {s t : State} (h : exec i s = .next t) : t.NotBusy := by
  obtain ⟨c, rfl⟩ | ⟨u, -, rfl⟩ := exec_next_cases h
  · simp [State.NotBusy]
  · simp [State.NotBusy]

/-- R47: a command leaves Busy, or it reads an unwritten word. -/
theorem exec_finished (i : Instr) (s : State) : Finished (exec i s) := by
  cases h : exec i s with
  | next t => exact .inl ⟨t, rfl, exec_notBusy h⟩
  | fault f =>
    cases f
    exact .inr (.inl rfl)
  | refused r => exact absurd h (exec_not_refused i s r)

/-- R39, R44, R78: an accepted command with the words its opcode asks for leaves Busy, legal or not, or reads an unwritten
word. -/
theorem execute_finished {w0 : Word64} {w1 : Option Word64} (hp : w1.isSome = needsPayload w0) (s : State) :
    Finished (execute w0 w1 s) := by
  cases hd : decode w0 w1 with
  | ok i =>
    rw [execute_of_decode hd]
    exact exec_finished i s
  | error e =>
    cases e with
    | illegalOpcode => exact .inl ⟨_, execute_of_illegalOpcode hd s, by simp [State.NotBusy]⟩
    | illegalField => exact .inl ⟨_, execute_of_illegalField hd s, by simp [State.NotBusy]⟩
    | missingPayload => exact absurd hd (Laws.decode_ne_missingPayload hp)

/-- R53: a host access has a next state, or it is malformed and refused. -/
theorem hostAccess_next_or_refused (a : HostAccess) (s : State) :
    (∃ t, hostAccess a s = .next t) ∨ hostAccess a s = .refused .hostAccessForm := by
  unfold hostAccess
  split
  · split <;> exact .inl ⟨_, rfl⟩
  · exact .inr rfl

/-- R230: a host access neither drives the reset input nor takes from the turns to come. -/
theorem hostAccess_inReset_turns {a : HostAccess} {s t : State} (h : hostAccess a s = .next t) :
    t.inReset = s.inReset ∧ t.turns = s.turns := by
  obtain ⟨-, ⟨-, -, rfl⟩ | ⟨-, -, rfl⟩ | ⟨v, -, -, rfl⟩ | ⟨v, -, -, rfl⟩⟩ := hostAccess_next_cases h
  · exact ⟨rfl, rfl⟩
  · rw [State.answer]
    rcases hostRead_state (hostRegAt a.offset) s with hs | ⟨-, -, -, hs⟩ <;> rw [hs] <;> exact ⟨rfl, rfl⟩
  · exact ⟨rfl, rfl⟩
  · rw [hostWrite_frame]
    exact ⟨rfl, rfl⟩

/-- R39, R54: no host access ends the busy state. -/
theorem hostAccess_cs_of_busy {a : HostAccess} {s t : State} {w0 : Word64} {w1 : Option Word64} (hc : s.cs = .busy w0 w1)
    (h : hostAccess a s = .next t) : t.cs = .busy w0 w1 :=
  (busyUntilExecuted s t w0 w1 a hc h).1

/-- R44, R46: outside reset a step from Busy finishes, or the command is still accepted and one turn is gone. -/
theorem step_of_busy_cases {s : State} {w0 : Word64} {w1 : Option Word64} (hr : s.inReset = false)
    (hc : s.cs = .busy w0 w1) (hp : w1.isSome = needsPayload w0) :
    Finished (step s) ∨
    ∃ t, step s = .next t ∧ t.cs = .busy w0 w1 ∧ t.inReset = false ∧ s.turns ≠ [] ∧ t.turns = s.turns.tail := by
  obtain ⟨he, -⟩ | ⟨a, ht, hs⟩ | ⟨b, ht, hs⟩ := step_cases s
  · rw [step_of_busy hr he hc]
    exact .inl (execute_finished hp _)
  · have hne : s.turns ≠ [] := fun hnil => by simp [hnil] at ht
    rw [hs]
    obtain ⟨t, hn⟩ | href := hostAccess_next_or_refused a s.nextTurns
    · obtain ⟨hreset, hturns⟩ := hostAccess_inReset_turns hn
      exact .inr ⟨t, hn, hostAccess_cs_of_busy (s := s.nextTurns) hc hn, hreset.trans hr, hne, hturns⟩
    · exact .inl (.inr (.inr href))
  · have hne : s.turns ≠ [] := fun hnil => by simp [hnil] at ht
    rw [hs]
    obtain hreset | ⟨-, -, hkept⟩ := resetTurn_cases b s.nextTurns
    · rw [hreset]
      exact .inl (.inl ⟨_, rfl, fun _ _ => ControlState.noConfusion⟩)
    · rw [hkept]
      exact .inr ⟨_, rfl, hc, hr, hne, rfl⟩

/-! ### Finishing within the schedule (R241) -/

/-- R241: some run of at most `n` steps finishes. -/
def State.FinishesWithin (s : State) (n : Nat) : Prop :=
  ∃ k ≤ n, Finished (Host.Core.run core k s)

theorem State.finishesWithin_of_finished {s : State} (n : Nat) (h : Finished (step s)) : s.FinishesWithin (n + 1) :=
  ⟨1, Nat.succ_le_succ n.zero_le, (run_one s).symm ▸ h⟩

theorem State.FinishesWithin.of_step {s t : State} {n : Nat} (h : step s = .next t) (ht : t.FinishesWithin n) :
    s.FinishesWithin (n + 1) := by
  obtain ⟨k, hk, hrun⟩ := ht
  exact ⟨k + 1, Nat.succ_le_succ hk, (run_of_next k h).symm ▸ hrun⟩

/-- R241: an accepted command with the words its opcode asks for finishes at the latest in the step after the last turn, which
is the engine's. -/
theorem finishesWithin_turns {s : State} {w0 : Word64} {w1 : Option Word64} (hr : s.inReset = false)
    (hc : s.cs = .busy w0 w1) (hp : w1.isSome = needsPayload w0) : s.FinishesWithin (s.turns.length + 1) := by
  induction hts : s.turns generalizing s with
  | nil =>
    obtain hend | ⟨-, -, -, -, hne, -⟩ := step_of_busy_cases hr hc hp
    · exact s.finishesWithin_of_finished 0 hend
    · exact absurd hts hne
  | cons x xs ih =>
    obtain hend | ⟨t, hstep, hct, hrt, -, htt⟩ := step_of_busy_cases hr hc hp
    · exact s.finishesWithin_of_finished _ hend
    · exact .of_step hstep (ih hrt hct (by rw [htt, hts, List.tail_cons]))

/-- Settles O60: the invariant gives the command the words its opcode asks for. -/
theorem acceptedCommandFinishes : Obligations.AcceptedCommandFinishes := by
  unfold Obligations.AcceptedCommandFinishes
  intro s w0 w1 hi hr hc
  have hp : ControlOk (.busy w0 w1) := hc ▸ hi.control
  exact finishesWithin_turns hr hc hp

/-! ### The reset input (R230) -/

/-- R230: while reset is asserted the engine does nothing. -/
theorem engineTurn_of_inReset {s : State} (hr : s.inReset = true) : engineTurn s = .next s := by
  rw [engineTurn, if_pos hr]

/-- R230: asserting reset abandons a command in progress. -/
theorem resetTurn_asserted (s : State) : resetTurn true s = { s.resetBlock with inReset := true } := rfl

/-- R46, R230: deasserting reset leaves the state of R46. -/
theorem resetTurn_deasserted {s : State} (hr : s.inReset = true) : resetTurn false s = s.resetBlock := by
  simp [resetTurn, hr]

/-- R230: while reset is asserted a write has no effect on the block. -/
theorem step_write_of_inReset {s : State} {o : Fin 256} {v : Word32} (hr : s.inReset = true) (ho : (o : Nat) % 4 = 0) :
    step (s.before (writeTurn o v)) = .next s.nextEpoch := by
  rw [step_before]
  simp [takeTurn, writeTurn, hostAccess, HostAccess.legal, ho, hr]

/-- R230: while reset is asserted a read returns a draw. -/
theorem step_read_of_inReset {s : State} {o : Fin 256} (hr : s.inReset = true) (ho : (o : Nat) % 4 = 0) :
    step (s.before (readTurn o)) = .next (State.answer (s.drawAt o, s)) := by
  rw [step_before]
  simp [takeTurn, readTurn, hostAccess, HostAccess.legal, ho, hr]

/-- Settles O49: the assertion, and what each kind of turn does while reset is asserted. -/
theorem resetInput : Obligations.ResetInput := by
  unfold Obligations.ResetInput
  refine fun s => ⟨⟨_, congrArg _ (resetTurn_asserted s), rfl, rfl⟩, fun hr => ⟨?_, ?_, ?_, ?_⟩⟩
  · exact congrArg _ (resetTurn_deasserted hr)
  · exact engineTurn_of_inReset hr
  · exact fun o v ho => step_write_of_inReset hr ho
  · exact fun o ho => step_read_of_inReset hr ho

end Sys2Proof.Machine
end
